-- ==== Sys2Proof/Word.lean ====
section
/-! DEFINITION. The machine's words (00_scope.md R2, R8, R9; 10_state.md R30; 20_memory.md R50). -/

namespace Sys2Proof

/-- A 64-bit word: the data of a register access (R30), a value to encode (R2), a command word (R75). -/
abbrev Word := BitVec 64

/-- A byte of the buffer memory, which is also a wire byte (R50, R70). -/
abbrev Byte := BitVec 8

/-- A buffer-memory address, held in 64 bits: ADDR_W is at most 64 (R4), and a narrower part uses the low ADDR_W bits
(log 1). -/
abbrev Addr := BitVec 64

end Sys2Proof
end

