-- ==== Sys2Proof/Syntax.lean ====
section
/-! DEFINITION. The commands of the opcode table, the host's actions, the agents and their turns
(30_encoding.md R75 to R81; 10_state.md R20, R30; 70_reset_and_hazards.md R230). -/

namespace Sys2Proof

/-- The commands of spec/opcode_table.json (R76). A command word has no operand field: every operand is taken from an
operand register (R75, R78). -/
inductive Instr where
  /-- NOP, command word 0 (R182). -/
  | nop
  /-- ENC, command word 1: start an encode transaction (R184). -/
  | enc
  /-- DEC, command word 2: start a decode transaction (R185). -/
  | dec
  deriving DecidableEq, Repr

/-- Why the decoder reads no command from a command word (R77). -/
inductive DecodeError where
  /-- A bit of RSVD = d[63:4] is set, whatever OPC is. -/
  | reservedBits
  /-- RSVD is 0 and OPC is 0x3 to 0xF. -/
  | reservedOpcode (opc : BitVec 4)
  deriving DecidableEq, Repr

/-- A row of the opcode table: a word belongs to it when it equals `pattern` on the bits of `mask`. -/
structure OpcodeRow where
  mnemonic : String
  pattern : Word
  mask : Word
  instr : Instr
  deriving DecidableEq, Repr

/-- The host register map (R30): ten named indices and the six reserved ones, 0xA to 0xF. -/
inductive HReg where
  | cmd
  | status
  | encValue
  | encBase
  | encCap
  | encCount
  | decBase
  | decLen
  | decResult
  | decCount
  | reserved (k : Fin 6)
  deriving DecidableEq, Repr

/-- One action of the host (R80), and the host-side loop of R81. -/
inductive HostAction where
  /-- `WR reg, data`: a register write. -/
  | wr (r : HReg) (d : Word)
  /-- `RD reg`: a register read. -/
  | rd (r : HReg)
  /-- `MW addr, byte`: a write of one buffer byte. -/
  | mw (a : Addr) (v : Byte)
  /-- `MR addr`: a read of one buffer byte. -/
  | mr (a : Addr)
  /-- `WAIT mask, value`: `RD STATUS`, again and again, until the masked word is the value (R81). One poll is one step. -/
  | wait (mask value : Word)
  deriving DecidableEq, Repr

/-- The agents that take steps (R20). -/
inductive Agent where
  | host
  | enc
  | dec
  deriving DecidableEq, Repr, Inhabited

/-- What happens next: a step of one agent (R20, R62), or the reset event, which belongs to no agent (R230). -/
inductive Turn where
  | agent (a : Agent)
  | reset
  deriving DecidableEq, Repr, Inhabited

end Sys2Proof
end

