-- ==== Sys2Proof/Config.lean ====
section
/-! DEFINITION. The implementation parameters of 00_scope.md §4 and the free value of the schedule (log 1, log 3). -/

namespace Sys2Proof

/-- A range of addresses, both ends included. -/
structure Region where
  first : Nat
  last : Nat
  deriving DecidableEq, Repr

/-- The parameters the spec's model takes as arguments (R4, R5, R6). They are plain data, and no step changes them
(log 1). `admitted` lists the address ranges of the platform's predicate; an address in none of them is not admitted.
Every predicate on the 2^ADDR_W addresses is given by some list. -/
structure Platform where
  addrW : Nat
  lenW : Nat
  admitted : List Region
  deriving DecidableEq, Repr

/-- This hardware: ADDR_W = LEN_W = 64 (R4, R5), every address admitted (93_implementation_defined.md I5). -/
def Platform.hardware : Platform :=
  { addrW := 64, lenW := 64, admitted := [{ first := 0, last := 2 ^ 64 - 1 }] }

/-- Which turn comes next once the schedule that State holds is used up: R62 lets any agent be next and R230 lets a reset
come between any two steps, so this is a free value. It is applied to a counter of such turns (log 3). -/
opaque Config.freeTurn : Nat → Turn

end Sys2Proof
end

