-- ==== Sys2Proof/Machine/State.lean ====
section
/-! DEFINITION. The state of the block (10_state.md), the reasons a step can stop, and the state after reset. -/

namespace Sys2Proof.Machine

/-- The model fault of 60_exceptions.md R200, the only kind.
No step ANSWERS a fault: the spec has the raising step record it in FAULT and lets the host go on (R201), so the record is
kept in `State.fault` and the step goes to a next state (log 5). -/
inductive Fault where
  /-- Raised by `memRead` and `memWrite` for `agent` when `addr` is not admitted (R51). Safe: the access reads no value and
  writes no byte, and a faulted state is never final. -/
  | bufferNotAdmitted (agent : Agent) (addr : Addr)
  deriving DecidableEq, Repr

/-- Why a command has no meaning. -/
inductive Refusal where
  /-- A command of the opcode table that `exec` gives no meaning. Raised by no arm: every command has its meaning. Safe. -/
  | notModelled (mnemonic : String)
  deriving DecidableEq, Repr

/-- The encoder's registers (R23). ENC_BASE is ADDR_W bits wide, ENC_CAP and ENC_WPTR are LEN_W bits wide; each is held
in a word of which the bits above its width are 0 (log 1). -/
structure EncRegs where
  /-- ENC_VALUE -/
  value : Word
  /-- ENC_BASE -/
  base : Addr
  /-- ENC_CAP -/
  cap : Word
  /-- ENC_REM, hidden (R26) -/
  rem : Word
  /-- ENC_WPTR, read by the host as ENC_COUNT -/
  wptr : Word
  /-- ENC_BUSY -/
  busy : Bool
  /-- ENC_DONE -/
  done : Bool
  /-- ENC_TRUNC -/
  trunc : Bool
  deriving DecidableEq, Repr

/-- The decoder's registers (R24), widths as in `EncRegs`. -/
structure DecRegs where
  /-- DEC_BASE -/
  base : Addr
  /-- DEC_LEN -/
  len : Word
  /-- DEC_ACC, hidden (R26) -/
  acc : Word
  /-- DEC_SHIFT, hidden (R26) -/
  shift : BitVec 6
  /-- DEC_RPTR, read by the host as DEC_COUNT -/
  rptr : Word
  /-- DEC_BUSY -/
  busy : Bool
  /-- DEC_DONE -/
  done : Bool
  /-- DEC_ERR (R79) -/
  err : BitVec 2
  /-- DEC_RESULT -/
  result : Word
  deriving DecidableEq, Repr

/-- What a read returned to the host (R183, R189). -/
inductive HostRead where
  | reg (r : HReg) (w : Word)
  | mem (a : Addr) (v : Byte)
  deriving DecidableEq, Repr

/-- The buffer memory: address and byte pairs, addresses strictly rising, no byte equal to `Memory.unlisted`. -/
abbrev Memory := List Host.Cell

/-- What an address that no pair lists reads as. The spec gives BUFMEM no content at launch: it is the parameter BUFMEM0
(R7, R50). DESIGN CHOICE, unsafe (log 2): 0. Every BUFMEM0 is some list of pairs, and a claim over all states is a claim
over every BUFMEM0. -/
def Memory.unlisted : Byte := 0#8

/-- The canonical form of a memory. -/
def Memory.wf : Memory → Bool
  | [] => true
  | (a, v) :: rest => (v != Memory.unlisted) && rest.all (fun c => decide (a < c.1)) && Memory.wf rest

/-- The state. The last four fields are the model's own (INVENTORY.md, log 3, log 4). -/
structure State where
  /-- The encoder (R23). -/
  enc : EncRegs
  /-- The decoder (R24). -/
  dec : DecRegs
  /-- CMD_ILLEGAL (R25). -/
  cmdIllegal : Bool
  /-- FAULT (R25, R200). -/
  fault : Option Fault
  /-- BUFMEM (R50). -/
  mem : Memory
  /-- ADDR_W, LEN_W and `admitted` (R4, R5, R6); no step changes them. -/
  plat : Platform
  /-- The host's actions still to come (R80, R245). -/
  script : List HostAction
  /-- What the host's reads returned, newest first. -/
  reads : List HostRead
  /-- Whose turns come next (R62). -/
  schedule : List Turn
  /-- How many turns were taken past the end of the schedule: the argument of `Config.freeTurn`. -/
  freeTurns : Nat
  deriving DecidableEq, Repr

/-- R230: every encoder register resets to 0. -/
def EncRegs.zero : EncRegs :=
  { value := 0#64, base := 0#64, cap := 0#64, rem := 0#64, wptr := 0#64, busy := false, done := false, trunc := false }

/-- R230: every decoder register resets to 0. -/
def DecRegs.zero : DecRegs :=
  { base := 0#64, len := 0#64, acc := 0#64, shift := 0#6, rptr := 0#64, busy := false, done := false, err := 0#2,
    result := 0#64 }

/-- The machine right after reset (R230): every register and STATUS bit 0, no fault recorded, nothing written to the
buffer memory (log 2), the parameters of this hardware (log 1), and no host action or turn placed (log 3, log 4). -/
def State.reset : State :=
  { enc := EncRegs.zero, dec := DecRegs.zero, cmdIllegal := false, fault := none, mem := [], plat := Platform.hardware,
    script := [], reads := [], schedule := [], freeTurns := 0 }

end Sys2Proof.Machine
end

