-- ==== Sys2Proof/Machine/Ops.lean ====
section
/-! DEFINITION. The named operations over the state: one setter per field, the buffer memory (20_memory.md), recording a
fault (60_exceptions.md R201), whose turn is next (R62), and reset (70_reset_and_hazards.md R230). -/

namespace Sys2Proof.Machine

def State.setEnc (s : State) (e : EncRegs) : State := { s with enc := e }
def State.setDec (s : State) (d : DecRegs) : State := { s with dec := d }
def State.setCmdIllegal (s : State) (b : Bool) : State := { s with cmdIllegal := b }
def State.setFault (s : State) (f : Option Fault) : State := { s with fault := f }
def State.setMem (s : State) (m : Memory) : State := { s with mem := m }
def State.setScript (s : State) (l : List HostAction) : State := { s with script := l }
def State.setReads (s : State) (l : List HostRead) : State := { s with reads := l }
def State.setSchedule (s : State) (l : List Turn) : State := { s with schedule := l }
def State.setFreeTurns (s : State) (n : Nat) : State := { s with freeTurns := n }

/-- Keep the low `w` bits of a word: a write to a register of width `w` (R10, R35), and addition modulo 2^`w` (R9). -/
def truncTo (w : Nat) (x : Word) : Word := BitVec.ofNat 64 (x.toNat % 2 ^ w)

/-- The address of the byte at offset `k` of a buffer: (BASE + k) mod 2^ADDR_W (R54). -/
def effAddr (p : Platform) (base k : Word) : Addr := truncTo p.addrW (base + k)

/-- `admitted(a)` (R6, R51). A number of more than ADDR_W bits is no address of BUFMEM (R36; log 8). -/
def admits (p : Platform) (a : Addr) : Bool :=
  decide (a.toNat < 2 ^ p.addrW) && p.admitted.any (fun r => decide (r.first ≤ a.toNat) && decide (a.toNat ≤ r.last))

/-- BUFMEM[a]. -/
def Memory.read : Memory → Nat → Byte
  | [], _ => Memory.unlisted
  | (b, w) :: rest, a => if a = b then w else Memory.read rest a

/-- BUFMEM[a] <- v, in canonical form: writing what an unlisted address reads as lists nothing at `a`. -/
def Memory.write : Memory → Nat → Byte → Memory
  | [], a, v => if v = Memory.unlisted then [] else [(a, v)]
  | (b, w) :: rest, a, v =>
    if a < b then
      if v = Memory.unlisted then (b, w) :: rest else (a, v) :: (b, w) :: rest
    else if a = b then
      if v = Memory.unlisted then rest else (a, v) :: rest
    else (b, w) :: Memory.write rest a v

/-- `MemRead(a, 1)` by `agent` (R52): a fault where the address is not admitted, else the byte. -/
def memRead (agent : Agent) (a : Addr) (s : State) : Except Fault Byte :=
  if admits s.plat a then .ok (s.mem.read a.toNat) else .error (.bufferNotAdmitted agent a)

/-- `MemWrite(a, 1, v)` by `agent` (R53): a fault where the address is not admitted, else that one byte changes. -/
def memWrite (agent : Agent) (a : Addr) (v : Byte) (s : State) : Except Fault State :=
  if admits s.plat a then .ok (s.setMem (s.mem.write a.toNat v)) else .error (.bufferNotAdmitted agent a)

/-- `raise Fault(info)` (R11, R201): FAULT takes the record, and the step makes none of its other writes. This is the
block's one exceptional outcome. It has no handler, saves nothing, changes no mode and is never returned from, so no return
operation exists (R202, R205, R207). -/
def raiseFault (r : Fault) (s : State) : State := s.setFault (some r)

/-- What a host read returned, recorded for the host (R183, R189). -/
def pushRead (r : HostRead) (s : State) : State := s.setReads (r :: s.reads)

/-- Whose turn is next: the head of the schedule, and past its end a free value (R62; log 3). -/
def nextTurn (s : State) : Turn :=
  match s.schedule with
  | t :: _ => t
  | [] => Config.freeTurn s.freeTurns

/-- The state once its next turn is taken: the schedule's head goes, or past the schedule's end the counter advances. -/
def takeTurn (s : State) : State :=
  (s.setSchedule s.schedule.tail).setFreeTurns (s.freeTurns + if s.schedule.isEmpty then 1 else 0)

/-- Reset (R230, R231): every register of the block is 0. BUFMEM and FAULT are unchanged, a transaction in progress is
abandoned with the bytes it wrote left in place, and what lies outside the block is not touched (log 9). -/
def resetBlock (s : State) : State :=
  ((s.setEnc EncRegs.zero).setDec DecRegs.zero).setCmdIllegal false

/-- The machine at launch with given parameters, content of BUFMEM (BUFMEM0), host script and schedule (R4 to R7, R245). -/
def State.launch (p : Platform) (bufmem0 : Memory) (script : List HostAction) (schedule : List Turn) : State :=
  { State.reset with plat := p, mem := bufmem0, script := script, schedule := schedule }

end Sys2Proof.Machine
end

