-- ==== Sys2Proof/Machine/Flags.lean ====
section
/-! DEFINITION. The STATUS word and the status bits that commands and engine steps set and clear (10_state.md R33;
30_encoding.md R79). -/

namespace Sys2Proof.Machine

/-- DEC_ERR codes (R79). Code 3 is reserved and no step produces it. -/
def errOK : BitVec 2 := 0#2
def errEOF : BitVec 2 := 1#2
def errOVF : BitVec 2 := 2#2

/-- One bit as a word. -/
def bitWord (b : Bool) : Word := (BitVec.ofBool b).setWidth 64

/-- STATUS (R33): ENC_BUSY | ENC_DONE<<1 | ENC_TRUNC<<2 | DEC_BUSY<<4 | DEC_DONE<<5 | DEC_ERR<<6 | CMD_ILLEGAL<<8. -/
def statusWord (s : State) : Word :=
  bitWord s.enc.busy ||| (bitWord s.enc.done <<< 1) ||| (bitWord s.enc.trunc <<< 2)
    ||| (bitWord s.dec.busy <<< 4) ||| (bitWord s.dec.done <<< 5) ||| ((s.dec.err.setWidth 64) <<< 6)
    ||| (bitWord s.cmdIllegal <<< 8)

/-- The end of an encode transaction (R104): BUSY <- 0, DONE <- 1, and whether it was truncated. -/
def finishEnc (truncated : Bool) (e : EncRegs) : EncRegs :=
  { e with busy := false, done := true, trunc := truncated }

/-- The end of a decode transaction (R141, R142, R145): BUSY <- 0, DONE <- 1, DEC_ERR and DEC_RESULT. -/
def finishDec (err : BitVec 2) (result : Word) (d : DecRegs) : DecRegs :=
  { d with busy := false, done := true, err := err, result := result }

end Sys2Proof.Machine
end

