-- ==== Sys2Proof/Machine/Wire.lean ====
section
/-! DEFINITION. The wire format as functions of values and byte sequences, apart from the engines that produce and consume
it (30_encoding.md R70 to R74; 41_decoder.md R147). -/

namespace Sys2Proof.Machine

/-- C, bit 7 of a wire byte: more bytes follow (R70). -/
def wireMore (b : Byte) : Bool := b.getLsbD 7

/-- D, bits 6:0 of a wire byte, as a word: `zext_64(b[6:0])` (R70, R144). -/
def wireChunk (b : Byte) : Word := (b.extractLsb' 0 7).setWidth 64

/-- `bitlen(v)` (R9). -/
def bitlen (v : Word) : Nat := if v = 0#64 then 0 else v.toNat.log2 + 1

/-- n(v) = max(1, ceil(bitlen(v) / 7)) (R72). -/
def encLen (v : Word) : Nat := max 1 ((bitlen v + 6) / 7)

/-- b_k of enc(v): bits 7k+6 .. 7k of v, with C = 1 on every byte but the last (R72). -/
def encByte (v : Word) (k : Nat) : Byte :=
  ((v >>> (7 * k)).extractLsb' 0 7).setWidth 8 ||| (if k + 1 < encLen v then 0x80#8 else 0x00#8)

/-- enc(v) (R72). -/
def encBytes (v : Word) : List Byte := (List.range (encLen v)).map (encByte v)

/-- Sum over k < n of `zext_64(b_k[6:0]) << 7k` (R28, R147). -/
def chunkSum (b : Nat → Byte) : Nat → Word
  | 0 => 0#64
  | n + 1 => chunkSum b n + wireChunk (b n) <<< (7 * n)

/-- The least k < n whose byte is a terminator, if there is one (R73, R147). -/
def firstTerminator (b : Nat → Byte) (n : Nat) : Option Nat :=
  (List.range n).find? (fun k => !wireMore (b k))

end Sys2Proof.Machine
end

