-- ==== Sys2Proof/Machine/Decoder.lean ====
section
/-! DEFINITION. The decoder engine (41_decoder.md R140 to R146). -/

namespace Sys2Proof.Machine

/-- The address DEC reads next (R54, R140). -/
def decAddr (s : State) : Addr := effAddr s.plat s.dec.base s.dec.rptr

/-- DEC has a step exactly when DEC_BUSY = 1 and FAULT = none (R146). -/
def decEnabled (s : State) : Bool := s.dec.busy && s.fault.isNone

/-- 7-bit reassembly shifter (R144): DEC_ACC + (zext_64(b[6:0]) << DEC_SHIFT). -/
def reassemble (acc : Word) (shift : BitVec 6) (b : Byte) : Word := acc + wireChunk b <<< shift.toNat

/-- The decoder's registers after it has read the byte `b` (R145, R146): a terminator ends the transaction with the new
accumulator as its result, and a continuation byte advances the shift by 7. -/
def advanceDec (p : Platform) (b : Byte) (d : DecRegs) : DecRegs :=
  let acc' := reassemble d.acc d.shift b
  let d' := { d with acc := acc', rptr := truncTo p.lenW (d.rptr + 1#64) }
  if wireMore b then { d' with shift := d.shift + 7#6 } else finishDec errOK acc' d'

/-- DEC_STEP (R146). The checks come in the order of R143 and R204: truncation detector (R141), overflow guard (R142), and
only then the read, which may fault (R201). -/
def decStep (s : State) : State :=
  if s.dec.rptr = s.dec.len then s.setDec (finishDec errEOF 0#64 s.dec)
  else if 63 ≤ s.dec.shift.toNat then s.setDec (finishDec errOVF 0#64 s.dec)
  else
    match memRead .dec (decAddr s) s with
    | .error r => raiseFault r s
    | .ok b => s.setDec (advanceDec s.plat b s.dec)

/-- A turn of DEC: its step where it has one (R146), else nothing (log 3). -/
def decTurn (s : State) : State := if decEnabled s then decStep s else s

end Sys2Proof.Machine
end

