-- ==== Sys2Proof/Machine/Encoder.lean ====
section
/-! DEFINITION. The encoder engine (40_encoder.md R100 to R106). -/

namespace Sys2Proof.Machine

/-- 7-bit extractor: `zext_8(rem[6:0])` (R100). -/
def extract7 (rem : Word) : Byte := (rem.extractLsb' 0 7).setWidth 8

/-- Remaining-value shifter (R101). -/
def nextRem (rem : Word) : Word := rem >>> 7

/-- Continuation-bit setter (R102): bit 7 is set when a non-zero value remains after the shift. -/
def wireByte (rem : Word) : Byte := extract7 rem ||| (if nextRem rem ≠ 0#64 then 0x80#8 else 0x00#8)

/-- The address ENC writes next (R54, R103). -/
def encAddr (s : State) : Addr := effAddr s.plat s.enc.base s.enc.wptr

/-- ENC has a step exactly when ENC_BUSY = 1 and FAULT = none (R106). -/
def encEnabled (s : State) : Bool := s.enc.busy && s.fault.isNone

/-- The encoder's registers after it has written a byte (R106): the pointer advances, the rest of the value moves down, and
the transaction is complete when nothing remains (R104). -/
def advanceEnc (p : Platform) (e : EncRegs) : EncRegs :=
  let e' := { e with wptr := truncTo p.lenW (e.wptr + 1#64), rem := nextRem e.rem }
  if nextRem e.rem = 0#64 then finishEnc false e' else e'

/-- ENC_STEP (R106): stop truncated when the capacity is used up, else write one byte, which may fault (R201). -/
def encStep (s : State) : State :=
  if s.enc.wptr = s.enc.cap then s.setEnc (finishEnc true s.enc)
  else
    match memWrite .enc (encAddr s) (wireByte s.enc.rem) s with
    | .error r => raiseFault r s
    | .ok t => t.setEnc (advanceEnc s.plat s.enc)

/-- A turn of ENC: its step where it has one (R106), else nothing (log 3). -/
def encTurn (s : State) : State := if encEnabled s then encStep s else s

end Sys2Proof.Machine
end

