-- ==== Sys2Proof/WellFormed.lean ====
section
/-! DEFINITION. Which terms of the syntax and which parameters are legal. -/

namespace Sys2Proof

/-- A command has no field, so none is ill formed (R75). -/
def Instr.wf : Instr → Bool
  | .nop => true
  | .enc => true
  | .dec => true

/-- ADDR_W is 1 to 64 (R4) and LEN_W is 4 to 64 (R5). -/
def Platform.wf (p : Platform) : Bool :=
  decide (1 ≤ p.addrW) && decide (p.addrW ≤ 64) && decide (4 ≤ p.lenW) && decide (p.lenW ≤ 64)

/-- The address of a buffer access is an ADDR_W-bit number (R36, R50). The other actions have no illegal operand: an
index is one of sixteen (R30), and data is a whole word. -/
def HostAction.wf (p : Platform) : HostAction → Bool
  | .wr _ _ => true
  | .rd _ => true
  | .mw a _ => decide (a.toNat < 2 ^ p.addrW)
  | .mr a => decide (a.toNat < 2 ^ p.addrW)
  | .wait _ _ => true

end Sys2Proof
end

