-- ==== Sys2Proof/Decode.lean ====
section
/-! DEFINITION. From command words to commands and back (30_encoding.md R75 to R77), and from register indices to
registers and back (10_state.md R30). -/

namespace Sys2Proof

/-- OPC, bits 3:0 of a command word (R75). -/
def opcField (d : Word) : BitVec 4 := d.extractLsb' 0 4

/-- RSVD, bits 63:4 of a command word (R75). -/
def rsvdField (d : Word) : BitVec 60 := d.extractLsb' 4 60

/-- The command of a command word, or why it is illegal (R76, R77). Total on every word. -/
def decode (d : Word) : Except DecodeError Instr :=
  if rsvdField d = 0#60 then
    match (opcField d).toNat with
    | 0 => .ok .nop
    | 1 => .ok .enc
    | 2 => .ok .dec
    | _ => .error (.reservedOpcode (opcField d))
  else .error .reservedBits

/-- The opcode of a command (R76). -/
def opcodeOf : Instr → BitVec 4
  | .nop => 0x0#4
  | .enc => 0x1#4
  | .dec => 0x2#4

/-- The command word of a command: RSVD = 0 above OPC (R75, R76). -/
def encode (i : Instr) : Word := 0#60 ++ opcodeOf i

/-- spec/opcode_table.json, row by row. -/
def opcodeTable : List OpcodeRow :=
  [ { mnemonic := "NOP", pattern := 0x0000000000000000#64, mask := 0xFFFFFFFFFFFFFFFF#64, instr := .nop },
    { mnemonic := "ENC", pattern := 0x0000000000000001#64, mask := 0xFFFFFFFFFFFFFFFF#64, instr := .enc },
    { mnemonic := "DEC", pattern := 0x0000000000000002#64, mask := 0xFFFFFFFFFFFFFFFF#64, instr := .dec } ]

/-- The command word that the low `nbits` bits of `w` make, the bits above them zero. A command is presented as one whole
64-bit word, so there is no byte order to choose (R55, R75; log 11). -/
def tableWord (nbits w : Nat) : Word := BitVec.ofNat 64 (w % 2 ^ nbits)

/-- The command the decoder reads from an instruction whose bits are `w`, numbered as the opcode table numbers them. -/
def decodeTableWord (nbits w : Nat) : Option Instr :=
  if w % 2 ^ nbits < 2 ^ 64 then
    match decode (tableWord nbits w) with
    | .ok i => some i
    | .error _ => none
  else none

/-- The register at a host index (R30): 0xA to 0xF are reserved. -/
def HReg.ofIndex (i : Fin 16) : HReg :=
  match i.val with
  | 0 => .cmd
  | 1 => .status
  | 2 => .encValue
  | 3 => .encBase
  | 4 => .encCap
  | 5 => .encCount
  | 6 => .decBase
  | 7 => .decLen
  | 8 => .decResult
  | 9 => .decCount
  | n => .reserved (Fin.ofNat 6 (n - 10))

/-- The host index of a register (R30). -/
def HReg.index : HReg → Fin 16
  | .cmd => 0
  | .status => 1
  | .encValue => 2
  | .encBase => 3
  | .encCap => 4
  | .encCount => 5
  | .decBase => 6
  | .decLen => 7
  | .decResult => 8
  | .decCount => 9
  | .reserved k => ⟨10 + k.val, by omega⟩

end Sys2Proof
end

