-- ==== Sys2Proof/Machine/Command.lean ====
section
/-! DEFINITION. The commands (42_host_commands.md R182, R184 to R186). A command's meaning is its effect on the block; a
start command for a busy engine has no step and leaves the state as it is (R181; log 12). -/

namespace Sys2Proof.Machine

/-- NOP (R182): CMD_ILLEGAL <- 0. -/
def execNop (s : State) : Host.Outcome State Fault Refusal := .next (s.setCmdIllegal false)

/-- The encoder's registers after an accepted ENC command (R184). -/
def startEnc (e : EncRegs) : EncRegs :=
  { e with rem := e.value, wptr := 0#64, busy := true, done := false, trunc := false }

/-- ENC (R184): held while ENC_BUSY = 1 (R181), else start an encode transaction. -/
def execEnc (s : State) : Host.Outcome State Fault Refusal :=
  if s.enc.busy then .next s else .next ((s.setEnc (startEnc s.enc)).setCmdIllegal false)

/-- The decoder's registers after an accepted DEC command (R185). -/
def startDec (d : DecRegs) : DecRegs :=
  { d with acc := 0#64, shift := 0#6, rptr := 0#64, result := 0#64, err := errOK, busy := true, done := false }

/-- DEC (R185): held while DEC_BUSY = 1 (R181), else start a decode transaction. -/
def execDec (s : State) : Host.Outcome State Fault Refusal :=
  if s.dec.busy then .next s else .next ((s.setDec (startDec s.dec)).setCmdIllegal false)

/-- An illegal command word (R186): CMD_ILLEGAL <- 1 and nothing else. -/
def illegalCommand (s : State) : State := s.setCmdIllegal true

end Sys2Proof.Machine
end

