-- ==== Sys2Proof/Machine/Operands.lean ====
section
/-! DEFINITION. The host's register map: what reading each index gives and what writing each operand register stores
(10_state.md R30 to R35; 42_host_commands.md R183, R187, R188). -/

namespace Sys2Proof.Machine

/-- `hreg[i]`, what `RD i` returns (R32): registers are held zero-extended; CMD and the reserved indices read 0. -/
def hreg (r : HReg) (s : State) : Word :=
  match r with
  | .cmd => 0#64
  | .status => statusWord s
  | .encValue => s.enc.value
  | .encBase => s.enc.base
  | .encCap => s.enc.cap
  | .encCount => s.enc.wptr
  | .decBase => s.dec.base
  | .decLen => s.dec.len
  | .decResult => s.dec.result
  | .decCount => s.dec.rptr
  | .reserved _ => 0#64

/-- A write that is not a command (R187, R188): an operand register stores the low bits that its width holds (R35); a
read-only or reserved index ignores the write. (A write to CMD is a command, see `hostWrite`.) -/
def writeReg (r : HReg) (d : Word) (s : State) : State :=
  match r with
  | .encValue => s.setEnc { s.enc with value := d }
  | .encBase => s.setEnc { s.enc with base := truncTo s.plat.addrW d }
  | .encCap => s.setEnc { s.enc with cap := truncTo s.plat.lenW d }
  | .decBase => s.setDec { s.dec with base := truncTo s.plat.addrW d }
  | .decLen => s.setDec { s.dec with len := truncTo s.plat.lenW d }
  | .cmd => s
  | .status => s
  | .encCount => s
  | .decResult => s
  | .decCount => s
  | .reserved _ => s

end Sys2Proof.Machine
end

