-- ==== Sys2Proof/Machine/HostPort.lean ====
section
/-! DEFINITION. The host's actions on the block (42_host_commands.md R180 to R190) and the pseudo-instructions of the host
script (30_encoding.md R81). -/

namespace Sys2Proof.Machine

/-- A write to CMD (R31, R182 to R186): a legal word is executed, an illegal one is recorded. -/
def commandWord (d : Word) (s : State) : Host.Outcome State Fault Refusal :=
  match decode d with
  | .ok i => exec i s
  | .error _ => .next (illegalCommand s)

/-- `WR r, d`, accepted (R180). -/
def hostWrite (r : HReg) (d : Word) (s : State) : Host.Outcome State Fault Refusal :=
  match r with
  | .cmd => commandWord d s
  | .status => .next (writeReg .status d s)
  | .encValue => .next (writeReg .encValue d s)
  | .encBase => .next (writeReg .encBase d s)
  | .encCap => .next (writeReg .encCap d s)
  | .encCount => .next (writeReg .encCount d s)
  | .decBase => .next (writeReg .decBase d s)
  | .decLen => .next (writeReg .decLen d s)
  | .decResult => .next (writeReg .decResult d s)
  | .decCount => .next (writeReg .decCount d s)
  | .reserved k => .next (writeReg (.reserved k) d s)

/-- Whether a command is held (R181): a start command for a busy engine. -/
def commandHeld (i : Instr) (s : State) : Bool :=
  match i with
  | .nop => false
  | .enc => s.enc.busy
  | .dec => s.dec.busy

/-- Whether a register write is held (R181). An illegal command word is not: legality comes before the hold (R204). -/
def writeHeld (r : HReg) (d : Word) (s : State) : Bool :=
  match r with
  | .cmd =>
    match decode d with
    | .ok i => commandHeld i s
    | .error _ => false
  | .encValue => s.enc.busy
  | .encBase => s.enc.busy
  | .encCap => s.enc.busy
  | .decBase => s.dec.busy
  | .decLen => s.dec.busy
  | .status => false
  | .encCount => false
  | .decResult => false
  | .decCount => false
  | .reserved _ => false

/-- Whether a host action is held: only register writes are (R181, R183, R189). -/
def held (a : HostAction) (s : State) : Bool :=
  match a with
  | .wr r d => writeHeld r d s
  | .rd _ => false
  | .mw _ _ => false
  | .mr _ => false
  | .wait _ _ => false

/-- `RD r` (R183): the register's value goes to the host and nothing else changes. -/
def hostRead (r : HReg) (s : State) : State := pushRead (.reg r (hreg r s)) s

/-- `MW a, v` (R189). -/
def hostMemWrite (a : Addr) (v : Byte) (s : State) : State :=
  match memWrite .host a v s with
  | .error r => raiseFault r s
  | .ok t => t

/-- `MR a` (R189). -/
def hostMemRead (a : Addr) (s : State) : State :=
  match memRead .host a s with
  | .error r => raiseFault r s
  | .ok b => pushRead (.mem a b) s

/-- One poll of `WAIT mask, value` (R81): `RD STATUS`, and the loop goes round again unless the masked word is the value.
The host's branch takes no step of its own. -/
def hostPoll (mask value : Word) (s : State) : State :=
  if statusWord s &&& mask = value then hostRead .status s
  else (hostRead .status s).setScript (.wait mask value :: s.script)

/-- A host action that is not held, in the state whose script no longer holds it (R180; log 6). -/
def hostAct (a : HostAction) (s : State) : Host.Outcome State Fault Refusal :=
  match a with
  | .wr r d => hostWrite r d s
  | .rd r => .next (hostRead r s)
  | .mw a v => .next (hostMemWrite a v s)
  | .mr a => .next (hostMemRead a s)
  | .wait m v => .next (hostPoll m v s)

/-- A turn of HOST: its next action, or nothing where the script is finished or the action is held (R181; log 3). -/
def hostTurn (s : State) : Host.Outcome State Fault Refusal :=
  match s.script with
  | [] => .next s
  | a :: rest => if held a s then .next s else hostAct a (s.setScript rest)

/-- The pseudo-instructions of R81 as the host actions they expand to. -/
def pseudoNop : List HostAction := [.wr .cmd 0x0#64]
def pseudoEnc : List HostAction := [.wr .cmd 0x1#64]
def pseudoDec : List HostAction := [.wr .cmd 0x2#64]
def pseudoEncode (v base cap : Word) : List HostAction :=
  [.wr .encValue v, .wr .encBase base, .wr .encCap cap, .wr .cmd 0x1#64]
def pseudoDecode (base len : Word) : List HostAction := [.wr .decBase base, .wr .decLen len, .wr .cmd 0x2#64]
def pseudoWaitEnc : List HostAction := [.wait 0x3#64 0x2#64]
def pseudoWaitDec : List HostAction := [.wait 0x30#64 0x20#64]

end Sys2Proof.Machine
end

