-- ==== Sys2Proof/Machine/Step.lean ====
section
/-! DEFINITION. One step of the machine: one turn of one agent, or a reset (10_state.md R20; 20_memory.md R62). -/

namespace Sys2Proof.Machine

/-- One step: the next turn of the schedule (log 3). -/
def step (s : State) : Host.Outcome State Fault Refusal :=
  match nextTurn s with
  | .agent .host => hostTurn (takeTurn s)
  | .agent .enc => .next (encTurn (takeTurn s))
  | .agent .dec => .next (decTurn (takeTurn s))
  | .reset => .next (resetBlock (takeTurn s))

/-- The state with a command word placed where the next step takes it: the block fetches no instructions (R64), and a command
reaches it only as a host write to CMD, so `WR CMD, w` becomes the host's next action and the next turn is the host's
(log 11). -/
def State.withFetchWord (s : State) (nbits w : Nat) : State :=
  (s.setScript (.wr .cmd (tableWord nbits w) :: s.script)).setSchedule (.agent .host :: s.schedule)

end Sys2Proof.Machine
end

