-- ==== Sys2Proof/Safety.lean ====
section
/-! DEFINITION. The terms claims are stated in: runs and final states (70_reset_and_hazards.md R245), the spans of a
transaction and the host's duty about them (R242), and the invariants of the machine (10_state.md R27, R28, R33). -/

namespace Sys2Proof.Machine

/-- `n` steps, stopping at the first that does not go to a next state. -/
def run : Nat → State → Host.Outcome State Fault Refusal
  | 0, s => .next s
  | n + 1, s =>
    match step s with
    | .next t => run n t
    | .fault r => .fault r
    | .refused r => .refused r

/-- A final state (R245): the script is finished, no transaction is in progress, and no fault was recorded. -/
def State.final (s : State) : Bool := s.script.isEmpty && !s.enc.busy && !s.dec.busy && s.fault.isNone

/-- The byte at offset `k` of the buffer at `base` (R54). -/
def byteAt (s : State) (base : Addr) (k : Nat) : Byte := s.mem.read (effAddr s.plat base (BitVec.ofNat 64 k)).toNat

/-- `a` is an address of ENC's span: ENC_BASE + k for k < min(ENC_CAP, 10) (R242). -/
def inEncSpan (s : State) (a : Addr) : Bool :=
  (List.range (min s.enc.cap.toNat 10)).any (fun k => effAddr s.plat s.enc.base (BitVec.ofNat 64 k) == a)

/-- `a` is an address of DEC's span: DEC_BASE + k for k < min(DEC_LEN, 9) (R242). -/
def inDecSpan (s : State) (a : Addr) : Bool :=
  (List.range (min s.dec.len.toNat 9)).any (fun k => effAddr s.plat s.dec.base (BitVec.ofNat 64 k) == a)

/-- The host's duty (R242): it does not access the span of a busy ENC and does not write the span of a busy DEC. -/
def HostAction.respectsSpans (s : State) : HostAction → Bool
  | .mw a _ => !(s.enc.busy && inEncSpan s a) && !(s.dec.busy && inDecSpan s a)
  | .mr a => !(s.enc.busy && inEncSpan s a)
  | .wr _ _ => true
  | .rd _ => true
  | .wait _ _ => true

/-- The spans of two busy engines do not overlap (R242). -/
def spansDisjoint (s : State) : Prop :=
  s.enc.busy = true → s.dec.busy = true → ∀ a, inEncSpan s a = true → inDecSpan s a = false

/-- The coming step is the host's, with `a` its next action and `rest` the script after it. -/
def HostNext (s : State) (a : HostAction) (rest : List HostAction) : Prop :=
  nextTurn s = .agent .host ∧ s.script = a :: rest

/-- The coming step respects R242 (R66): the two spans are apart, and where the step is the host's, its action keeps out of
them. -/
def RaceFree (s : State) : Prop :=
  spansDisjoint s ∧ ∀ a rest, HostNext s a rest → HostAction.respectsSpans s a = true

/-- The coming step does not have the host write into ENC's span (R242). -/
def EncSpanKept (s : State) : Prop := ∀ a v rest, HostNext s (.mw a v) rest → inEncSpan s a = false

/-- The coming step writes no byte of DEC's span, neither by the host nor by ENC (R242). -/
def DecSpanKept (s : State) : Prop :=
  (∀ a v rest, HostNext s (.mw a v) rest → inDecSpan s a = false) ∧
    (nextTurn s = .agent .enc → encEnabled s = true → s.enc.wptr ≠ s.enc.cap → inDecSpan s (encAddr s) = false)

/-- `EncRun k s t`: a run from `s` to `t`, of any interleaving, through which ENC is busy until `t`, with `k` turns of ENC in
it, no reset, and no host write into ENC's span. -/
inductive EncRun : Nat → State → State → Prop where
  | refl (s : State) : EncRun 0 s s
  | encTurn {k : Nat} {s t u : State} (busy : s.enc.busy = true) (turn : nextTurn s = .agent .enc)
      (next : step s = .next t) (rest : EncRun k t u) : EncRun (k + 1) s u
  | otherTurn {k : Nat} {s t u : State} (busy : s.enc.busy = true) (turn : nextTurn s ≠ .agent .enc)
      (noReset : nextTurn s ≠ .reset) (kept : EncSpanKept s) (next : step s = .next t) (rest : EncRun k t u) : EncRun k s u

/-- `DecRun k s t`: a run from `s` to `t`, of any interleaving, through which DEC is busy until `t`, with `k` turns of DEC in
it, no reset, and no write into DEC's span. -/
inductive DecRun : Nat → State → State → Prop where
  | refl (s : State) : DecRun 0 s s
  | decTurn {k : Nat} {s t u : State} (busy : s.dec.busy = true) (turn : nextTurn s = .agent .dec)
      (next : step s = .next t) (rest : DecRun k t u) : DecRun (k + 1) s u
  | otherTurn {k : Nat} {s t u : State} (busy : s.dec.busy = true) (turn : nextTurn s ≠ .agent .dec)
      (noReset : nextTurn s ≠ .reset) (kept : DecSpanKept s) (next : step s = .next t) (rest : DecRun k t u) : DecRun k s u

/-- No two of a buffer's offsets below `n` share an address. R54's wrap breaks it only for a part so narrow that
2^ADDR_W < n; on this hardware (ADDR_W = 64) it always holds (log 10). -/
def OffsetsDistinct (p : Platform) (n : Nat) : Prop := n ≤ 2 ^ p.addrW

/-- No offset between `k` and `n` has the address of offset `k`, so a transaction that writes the offsets below `n` in order
leaves the byte of offset `k` there. Under `OffsetsDistinct` it holds of every `k` below `n`. -/
def LastAtItsAddress (p : Platform) (base : Addr) (n k : Nat) : Prop :=
  ∀ j, k < j → j < n → effAddr p base (BitVec.ofNat 64 j) ≠ effAddr p base (BitVec.ofNat 64 k)

/-- Every access at offsets below `n` of the buffer at `base` is admitted (R51, R54). -/
def SpanAdmitted (p : Platform) (base : Addr) (n : Nat) : Prop :=
  ∀ k, k < n → admits p (effAddr p base (BitVec.ofNat 64 k)) = true

/-- What holds of the encoder in every state a run reaches (R22, R23, R27, R28, R33). -/
structure EncInv (p : Platform) (e : EncRegs) : Prop where
  base_fits : e.base.toNat < 2 ^ p.addrW
  cap_fits : e.cap.toNat < 2 ^ p.lenW
  wptr_le : e.wptr.toNat ≤ 10
  busy_not_done : e.busy = true → e.done = false
  trunc_done : e.trunc = true → e.done = true
  never_started : e.busy = false → e.done = false → e.rem = 0#64 ∧ e.wptr = 0#64
  busy_rem : e.busy = true → e.rem = e.value >>> (7 * e.wptr.toNat)
  busy_cap : e.busy = true → e.wptr.toNat ≤ e.cap.toNat
  busy_more : e.busy = true → e.wptr ≠ 0#64 → e.rem ≠ 0#64
  complete_rem : e.done = true → e.trunc = false → e.rem = 0#64

/-- What holds of the decoder in every state a run reaches (R22, R24, R28, R33, R79, R148, R153). -/
structure DecInv (p : Platform) (d : DecRegs) : Prop where
  base_fits : d.base.toNat < 2 ^ p.addrW
  len_fits : d.len.toNat < 2 ^ p.lenW
  rptr_le : d.rptr.toNat ≤ 9
  shift_step : d.shift.toNat % 7 = 0
  busy_not_done : d.busy = true → d.done = false
  err_done : d.err ≠ errOK → d.done = true ∧ d.result = 0#64
  err_produced : d.err ≠ 3#2
  result_lt : d.result.toNat < 2 ^ 63
  never_started : d.busy = false → d.done = false →
    d.acc = 0#64 ∧ d.shift = 0#6 ∧ d.rptr = 0#64 ∧ d.result = 0#64
  busy_shift : d.busy = true → d.shift.toNat = 7 * d.rptr.toNat
  busy_len : d.busy = true → d.rptr.toNat ≤ d.len.toNat
  busy_acc : d.busy = true → d.acc.toNat < 2 ^ (7 * d.rptr.toNat)
  busy_result : d.busy = true → d.result = 0#64

/-- What holds of the buffer memory: canonical form, and no byte listed outside the 2^ADDR_W addresses (R36). -/
structure MemInv (p : Platform) (m : Memory) : Prop where
  canonical : m.wf = true
  in_space : ∀ c ∈ m, c.1 < 2 ^ p.addrW

/-- The invariant of the machine. -/
structure MachineInv (s : State) : Prop where
  plat : s.plat.wf = true
  enc : EncInv s.plat s.enc
  dec : DecInv s.plat s.dec
  mem : MemInv s.plat s.mem

/-- While ENC runs, the bytes below its pointer are those of enc(ENC_VALUE) (R58, R108). On a part so narrow that two of these
offsets share an address, the byte is that of the later one (log 10). -/
def WrittenPrefix (s : State) : Prop :=
  s.enc.busy = true → ∀ k, k < s.enc.wptr.toNat → LastAtItsAddress s.plat s.enc.base s.enc.wptr.toNat k →
    byteAt s s.enc.base k = encByte s.enc.value k

/-- While DEC runs, the bytes below its pointer are continuation bytes and DEC_ACC is the sum of their chunks (R28). -/
def ReadPrefix (s : State) : Prop :=
  s.dec.busy = true →
    s.dec.acc = chunkSum (byteAt s s.dec.base) s.dec.rptr.toNat ∧
      ∀ k, k < s.dec.rptr.toNat → wireMore (byteAt s s.dec.base k) = true

end Sys2Proof.Machine
end

