-- ==== Sys2Proof/Certificates/Slice0/Obligations.lean ====
section
/-! DEFINITION. The statements for the provers. Each docstring names the rule of the spec it formalises. -/

open Sys2Proof Sys2Proof.Machine

/-! ### Command words and the register map -/

/-- R75, R76: words written out from the opcode map, with the words of test vector H4 that are no command. -/
def Obligations.TableWordsDecodeToTheirCommands : Prop :=
  decode 0x0000000000000000#64 = .ok .nop ∧ decode 0x0000000000000001#64 = .ok .enc ∧
    decode 0x0000000000000002#64 = .ok .dec ∧ decode 0x0000000000000003#64 = .error (.reservedOpcode 0x3#4) ∧
    decode 0x000000000000000F#64 = .error (.reservedOpcode 0xF#4) ∧ decode 0x0000000000000011#64 = .error .reservedBits ∧
    decode 0x8000000000000000#64 = .error .reservedBits ∧ decode 0xFFFFFFFFFFFFFFFF#64 = .error .reservedBits

/-- R77: a word is legal iff its RSVD field is 0 and its OPC field is 0, 1 or 2; the legal words are exactly 0, 1 and 2; an
illegal word is not executed and sets CMD_ILLEGAL. -/
def Obligations.CommandWordLegality : Prop :=
  ∀ d : Word,
    ((∃ i, decode d = .ok i) ↔
      d.extractLsb' 4 60 = 0#60 ∧ (d.extractLsb' 0 4 = 0x0#4 ∨ d.extractLsb' 0 4 = 0x1#4 ∨ d.extractLsb' 0 4 = 0x2#4)) ∧
    ((∃ i, decode d = .ok i) ↔ d = 0#64 ∨ d = 1#64 ∨ d = 2#64) ∧
    ((¬ ∃ i, decode d = .ok i) → ∀ s, hostWrite .cmd d s = .next { s with cmdIllegal := true })

/-- R75 to R77: the decoder reads a command from a word iff the word is the encoder's word for that command. -/
def Obligations.DecodeInvertsEncode : Prop := ∀ (d : Word) (i : Instr), decode d = .ok i ↔ d = encode i

/-- R30: the sixteen indices and their registers, each index one register and each register one index. -/
def Obligations.RegisterMapIsOneToOne : Prop :=
  ((List.finRange 16).map HReg.ofIndex =
    [.cmd, .status, .encValue, .encBase, .encCap, .encCount, .decBase, .decLen, .decResult, .decCount,
      .reserved 0, .reserved 1, .reserved 2, .reserved 3, .reserved 4, .reserved 5]) ∧
  (∀ i, (HReg.ofIndex i).index = i) ∧ (∀ r, HReg.ofIndex r.index = r)

/-! ### Commands -/

/-- R180, R181, and the model's schedule and script (log 3, log 4, log 11): when the host's next action writes a word that
decodes to a command that is not held, the step takes the turn and the action and is exec of that command; and the step from a
state with a command word placed by withFetchWord is exec of that command at the state itself. -/
def Obligations.StepRunsTheDecodedCommand : Prop :=
  (∀ s d i rest, HostNext s (.wr .cmd d) rest → decode d = .ok i →
    (i = .enc → s.enc.busy = false) → (i = .dec → s.dec.busy = false) →
    step s = exec i { takeTurn s with script := rest }) ∧
  (∀ s nbits w i, decodeTableWord nbits w = some i →
    (i = .enc → s.enc.busy = false) → (i = .dec → s.dec.busy = false) →
    step (s.withFetchWord nbits w) = exec i s)

/-- R182: NOP clears CMD_ILLEGAL and changes nothing else, is never held, and so clears bit 8 of STATUS. -/
def Obligations.NopClearsCommandIllegal : Prop :=
  (∀ s, exec .nop s = .next { s with cmdIllegal := false }) ∧
  (∀ s rest, HostNext s (.wr .cmd 0#64) rest →
    step s = .next { takeTurn s with script := rest, cmdIllegal := false }) ∧
  (∀ s t, exec .nop s = .next t → statusWord t = statusWord s &&& ~~~0x100#64)

/-- R184: ENC, with ENC_BUSY = 0, loads ENC_REM, clears the pointer, sets BUSY, clears DONE, TRUNC and CMD_ILLEGAL, and changes
nothing else, whatever the operands and whether or not DEC is busy; with ENC_BUSY = 1 the write is held. -/
def Obligations.EncCommandStartsTransaction : Prop :=
  (∀ s, s.enc.busy = false →
    exec .enc s = .next
      { s with
        enc := { s.enc with rem := s.enc.value, wptr := 0#64, busy := true, done := false, trunc := false },
        cmdIllegal := false }) ∧
  (∀ s rest, HostNext s (.wr .cmd 1#64) rest → s.enc.busy = false →
    step s = .next
      { takeTurn s with
        script := rest,
        enc := { s.enc with rem := s.enc.value, wptr := 0#64, busy := true, done := false, trunc := false },
        cmdIllegal := false }) ∧
  (∀ s rest, HostNext s (.wr .cmd 1#64) rest → s.enc.busy = true → step s = .next (takeTurn s))

/-- R185: DEC, with DEC_BUSY = 0, clears the accumulator, shift, pointer, result and error code, sets BUSY, clears DONE and
CMD_ILLEGAL, and changes nothing else, whatever the operands and whether or not ENC is busy; with DEC_BUSY = 1 the write is
held. -/
def Obligations.DecCommandStartsTransaction : Prop :=
  (∀ s, s.dec.busy = false →
    exec .dec s = .next
      { s with
        dec := { s.dec with
          acc := 0#64, shift := 0#6, rptr := 0#64, result := 0#64, err := 0#2, busy := true, done := false },
        cmdIllegal := false }) ∧
  (∀ s rest, HostNext s (.wr .cmd 2#64) rest → s.dec.busy = false →
    step s = .next
      { takeTurn s with
        script := rest,
        dec := { s.dec with
          acc := 0#64, shift := 0#6, rptr := 0#64, result := 0#64, err := 0#2, busy := true, done := false },
        cmdIllegal := false }) ∧
  (∀ s rest, HostNext s (.wr .cmd 2#64) rest → s.dec.busy = true → step s = .next (takeTurn s))

/-- R186: a word with a RSVD bit set or OPC of 3 or more sets CMD_ILLEGAL and does nothing else, whichever engine is busy, and
CMD_ILLEGAL is cleared only by a legal word that is accepted (or by reset, R230). -/
def Obligations.IllegalCommandOnlySetsCmdIllegal : Prop :=
  (∀ s d rest, HostNext s (.wr .cmd d) rest → (d.extractLsb' 4 60 ≠ 0#60 ∨ 3 ≤ (d.extractLsb' 0 4).toNat) →
    step s = .next { takeTurn s with script := rest, cmdIllegal := true }) ∧
  (∀ s t, s.cmdIllegal = true → step s = .next t → t.cmdIllegal = false →
    nextTurn s = .reset ∨ ∃ d rest i, HostNext s (.wr .cmd d) rest ∧ decode d = .ok i ∧ t.script = rest)

/-! ### Host register and buffer access -/

/-- R181: the writes that are held, and that no other action is (a WAIT polls on, R81). A held write stays the host's next
action and nothing happens; any other action is taken. -/
def Obligations.HeldWritesAndNoOthers : Prop :=
  (∀ s r d rest, HostNext s (.wr r d) rest →
    ((s.enc.busy = true ∧ (r = .encValue ∨ r = .encBase ∨ r = .encCap ∨ (r = .cmd ∧ d = 1#64))) ∨
      (s.dec.busy = true ∧ (r = .decBase ∨ r = .decLen ∨ (r = .cmd ∧ d = 2#64)))) →
    step s = .next (takeTurn s)) ∧
  (∀ s r d rest, HostNext s (.wr r d) rest →
    ¬ ((s.enc.busy = true ∧ (r = .encValue ∨ r = .encBase ∨ r = .encCap ∨ (r = .cmd ∧ d = 1#64))) ∨
      (s.dec.busy = true ∧ (r = .decBase ∨ r = .decLen ∨ (r = .cmd ∧ d = 2#64)))) →
    ∃ t, step s = .next t ∧ t.script = rest) ∧
  (∀ s r rest, HostNext s (.rd r) rest → ∃ t, step s = .next t ∧ t.script = rest)

/-- R187, R35: an operand write that is not held stores the low bits that the register's width holds, and changes nothing
else. It is accepted while the other engine is busy. -/
def Obligations.OperandWriteStoresLowBits : Prop :=
  (∀ s d rest, HostNext s (.wr .encValue d) rest → s.enc.busy = false →
    step s = .next { takeTurn s with script := rest, enc := { s.enc with value := d } }) ∧
  (∀ s d rest, HostNext s (.wr .encBase d) rest → s.enc.busy = false →
    step s = .next
      { takeTurn s with script := rest, enc := { s.enc with base := BitVec.ofNat 64 (d.toNat % 2 ^ s.plat.addrW) } }) ∧
  (∀ s d rest, HostNext s (.wr .encCap d) rest → s.enc.busy = false →
    step s = .next
      { takeTurn s with script := rest, enc := { s.enc with cap := BitVec.ofNat 64 (d.toNat % 2 ^ s.plat.lenW) } }) ∧
  (∀ s d rest, HostNext s (.wr .decBase d) rest → s.dec.busy = false →
    step s = .next
      { takeTurn s with script := rest, dec := { s.dec with base := BitVec.ofNat 64 (d.toNat % 2 ^ s.plat.addrW) } }) ∧
  (∀ s d rest, HostNext s (.wr .decLen d) rest → s.dec.busy = false →
    step s = .next
      { takeTurn s with script := rest, dec := { s.dec with len := BitVec.ofNat 64 (d.toNat % 2 ^ s.plat.lenW) } })

/-- R188: a write to a read-only or reserved index is accepted, whatever is busy, and has no effect. -/
def Obligations.ReadOnlyAndReservedWritesDoNothing : Prop :=
  ∀ s r d rest, HostNext s (.wr r d) rest →
    (r = .status ∨ r = .encCount ∨ r = .decResult ∨ r = .decCount ∨ ∃ k, r = .reserved k) →
    step s = .next { takeTurn s with script := rest }

/-- R32, R31: RD returns hreg of its index to the host and changes nothing else; what hreg is, index by index. -/
def Obligations.RegisterReadReturnsHreg : Prop :=
  (∀ s r rest, HostNext s (.rd r) rest →
    step s = .next { takeTurn s with script := rest, reads := .reg r (hreg r s) :: s.reads }) ∧
  (∀ s, hreg .cmd s = 0#64 ∧ hreg .status s = statusWord s ∧ hreg .encValue s = s.enc.value ∧
    hreg .encBase s = s.enc.base ∧ hreg .encCap s = s.enc.cap ∧ hreg .encCount s = s.enc.wptr ∧
    hreg .decBase s = s.dec.base ∧ hreg .decLen s = s.dec.len ∧ hreg .decResult s = s.dec.result ∧
    hreg .decCount s = s.dec.rptr ∧ ∀ k, hreg (.reserved k) s = 0#64)

/-- R33: the STATUS word bit by bit, the reserved bits 0. -/
def Obligations.StatusWordLayout : Prop :=
  ∀ s, (statusWord s).getLsbD 0 = s.enc.busy ∧ (statusWord s).getLsbD 1 = s.enc.done ∧
    (statusWord s).getLsbD 2 = s.enc.trunc ∧ (statusWord s).getLsbD 3 = false ∧
    (statusWord s).getLsbD 4 = s.dec.busy ∧ (statusWord s).getLsbD 5 = s.dec.done ∧
    (statusWord s).extractLsb' 6 2 = s.dec.err ∧ (statusWord s).getLsbD 8 = s.cmdIllegal ∧
    ∀ i, 9 ≤ i → (statusWord s).getLsbD i = false

/-- R81, and the model's own choice that one poll of WAIT is one step (log 4): a poll reads STATUS, and the WAIT stays the
host's next action unless the masked word is the value. -/
def Obligations.WaitPollsStatus : Prop :=
  ∀ s mask value rest, HostNext s (.wait mask value) rest →
    (statusWord s &&& mask = value →
      step s = .next { takeTurn s with script := rest, reads := .reg .status (statusWord s) :: s.reads }) ∧
    (statusWord s &&& mask ≠ value →
      step s = .next { takeTurn s with reads := .reg .status (statusWord s) :: s.reads })

/-- R52, R53: an admitted write changes the byte at its address and no other, and a read gives the byte at its address; an
access that is not admitted is the fault with its agent and address, for a write and for a read. -/
def Obligations.BufferReadsAndWritesOneByte : Prop :=
  ∀ (s : State) (ag : Agent) (a : Addr) (v : Byte), s.mem.wf = true →
    (admits s.plat a = true →
      memRead ag a s = .ok (s.mem.read a.toNat) ∧
      ∃ t, memWrite ag a v s = .ok t ∧ t = { s with mem := t.mem } ∧ t.mem.wf = true ∧
        (∀ ag', memRead ag' a t = .ok v) ∧ ∀ b, b ≠ a.toNat → t.mem.read b = s.mem.read b) ∧
    (admits s.plat a = false →
      memRead ag a s = .error (.bufferNotAdmitted ag a) ∧ memWrite ag a v s = .error (.bufferNotAdmitted ag a))

/-- R189: MW writes one byte and MR returns one byte to the host, each in one step that is never held; an access that is not
admitted sets FAULT and writes nothing else of the block. That it does so where FAULT holds a record already, which it then
replaces, is the model's reading of R201 (log 7), and what becomes of the script is left open (log 6). -/
def Obligations.HostBufferAccess : Prop :=
  (∀ s a v rest, HostNext s (.mw a v) rest → s.mem.wf = true → admits s.plat a = true →
    ∃ t, step s = .next t ∧ t = { takeTurn s with script := rest, mem := t.mem } ∧
      t.mem.read a.toNat = v ∧ ∀ b, b ≠ a.toNat → t.mem.read b = s.mem.read b) ∧
  (∀ s a rest, HostNext s (.mr a) rest → admits s.plat a = true →
    step s = .next { takeTurn s with script := rest, reads := .mem a (s.mem.read a.toNat) :: s.reads }) ∧
  (∀ s a act rest, HostNext s act rest → (act = .mr a ∨ ∃ v, act = .mw a v) → admits s.plat a = false →
    ∃ t, step s = .next t ∧
      t = { takeTurn s with script := t.script, fault := some (.bufferNotAdmitted .host a) })

/-! ### The datapath and the engine steps -/

/-- R100, R101, R102: the byte ENC writes has the low 7 bits of the remaining value below bit 7, and bit 7 set exactly when the
value shifted right by 7, which is below 2^57, is not 0. -/
def Obligations.WireByteOfRemainingValue : Prop :=
  ∀ rem : Word,
    extract7 rem = (rem.extractLsb' 0 7).setWidth 8 ∧ (extract7 rem).getLsbD 7 = false ∧
    (nextRem rem).toNat = rem.toNat / 2 ^ 7 ∧ (nextRem rem).toNat < 2 ^ 57 ∧
    wireMore (wireByte rem) = decide (nextRem rem ≠ 0#64) ∧
    (wireByte rem).extractLsb' 0 7 = rem.extractLsb' 0 7

/-- R54: an engine's byte at offset k is at (BASE + k) mod 2^ADDR_W, k the engine's pointer before the step, and k is at most 9
at every access (in the states of the invariant). -/
def Obligations.EffectiveAddressWraps : Prop :=
  (∀ (p : Platform) (base k : Word), p.wf = true →
    (effAddr p base k).toNat = (base.toNat + k.toNat) % 2 ^ p.addrW) ∧
  (∀ s, encAddr s = effAddr s.plat s.enc.base s.enc.wptr ∧ decAddr s = effAddr s.plat s.dec.base s.dec.rptr) ∧
  (∀ s, MachineInv s → encEnabled s = true → s.enc.wptr ≠ s.enc.cap → s.enc.wptr.toNat ≤ 9) ∧
  (∀ s, MachineInv s → decEnabled s = true → s.dec.rptr ≠ s.dec.len → s.dec.shift.toNat < 63 → s.dec.rptr.toNat ≤ 9)

/-- R106: a turn of ENC, case by case, with its frame: the capacity stop; a byte written, every other byte and register
unchanged; the fault; and no step unless ENC_BUSY = 1 and FAULT = none. -/
def Obligations.EncoderStep : Prop :=
  ∀ s, nextTurn s = .agent .enc →
    (s.enc.busy = false ∨ s.fault ≠ none → step s = .next (takeTurn s)) ∧
    (s.enc.busy = true → s.fault = none → s.enc.wptr = s.enc.cap →
      step s = .next { takeTurn s with enc := { s.enc with busy := false, done := true, trunc := true } }) ∧
    (s.enc.busy = true → s.fault = none → s.enc.wptr ≠ s.enc.cap → s.mem.wf = true →
      admits s.plat (effAddr s.plat s.enc.base s.enc.wptr) = true →
      ∃ t, step s = .next t ∧
        t = { takeTurn s with
          mem := t.mem,
          enc := { s.enc with
            wptr := BitVec.ofNat 64 ((s.enc.wptr + 1#64).toNat % 2 ^ s.plat.lenW),
            rem := s.enc.rem >>> 7,
            busy := decide (s.enc.rem >>> 7 ≠ 0#64),
            done := if s.enc.rem >>> 7 = 0#64 then true else s.enc.done,
            trunc := if s.enc.rem >>> 7 = 0#64 then false else s.enc.trunc } } ∧
        t.mem.read (effAddr s.plat s.enc.base s.enc.wptr).toNat =
          ((s.enc.rem.extractLsb' 0 7).setWidth 8 ||| if s.enc.rem >>> 7 ≠ 0#64 then 0x80#8 else 0x00#8) ∧
        ∀ b, b ≠ (effAddr s.plat s.enc.base s.enc.wptr).toNat → t.mem.read b = s.mem.read b) ∧
    (s.enc.busy = true → s.fault = none → s.enc.wptr ≠ s.enc.cap →
      admits s.plat (effAddr s.plat s.enc.base s.enc.wptr) = false →
      step s = .next
        { takeTurn s with fault := some (.bufferNotAdmitted .enc (effAddr s.plat s.enc.base s.enc.wptr)) })

/-- R146: a turn of DEC, case by case, with its frame: the truncation detector first, then the overflow guard, then the read of
one byte, which ends the transaction or continues it; the fault; and no step unless DEC_BUSY = 1 and FAULT = none. Memory is
unchanged in every case. -/
def Obligations.DecoderStep : Prop :=
  ∀ s, nextTurn s = .agent .dec →
    (s.dec.busy = false ∨ s.fault ≠ none → step s = .next (takeTurn s)) ∧
    (s.dec.busy = true → s.fault = none → s.dec.rptr = s.dec.len →
      step s = .next
        { takeTurn s with dec := { s.dec with busy := false, done := true, err := 1#2, result := 0#64 } }) ∧
    (s.dec.busy = true → s.fault = none → s.dec.rptr ≠ s.dec.len → 63 ≤ s.dec.shift.toNat →
      step s = .next
        { takeTurn s with dec := { s.dec with busy := false, done := true, err := 2#2, result := 0#64 } }) ∧
    (s.dec.busy = true → s.fault = none → s.dec.rptr ≠ s.dec.len → s.dec.shift.toNat < 63 →
      admits s.plat (effAddr s.plat s.dec.base s.dec.rptr) = true →
      ∀ b acc', b = s.mem.read (effAddr s.plat s.dec.base s.dec.rptr).toNat →
        acc' = s.dec.acc + ((b.extractLsb' 0 7).setWidth 64 <<< s.dec.shift.toNat) →
        (b.getLsbD 7 = false →
          step s = .next
            { takeTurn s with
              dec := { s.dec with
                acc := acc', rptr := BitVec.ofNat 64 ((s.dec.rptr + 1#64).toNat % 2 ^ s.plat.lenW),
                busy := false, done := true, err := 0#2, result := acc' } }) ∧
        (b.getLsbD 7 = true →
          step s = .next
            { takeTurn s with
              dec := { s.dec with
                acc := acc', rptr := BitVec.ofNat 64 ((s.dec.rptr + 1#64).toNat % 2 ^ s.plat.lenW),
                shift := s.dec.shift + 7#6 } })) ∧
    (s.dec.busy = true → s.fault = none → s.dec.rptr ≠ s.dec.len → s.dec.shift.toNat < 63 →
      admits s.plat (effAddr s.plat s.dec.base s.dec.rptr) = false →
      step s = .next
        { takeTurn s with fault := some (.bufferNotAdmitted .dec (effAddr s.plat s.dec.base s.dec.rptr)) })

/-! ### Faults and reset -/

/-- R201: a step that raises a fault makes no other write to the block; once FAULT is set the engines have no step and the host
still takes its actions, none of which clears FAULT; a BUSY bit that was 1 stays 1, reset apart (R231); no such state is
final. -/
def Obligations.FaultStopsEnginesAndNothingElse : Prop :=
  (∀ s t, step s = .next t → t.fault ≠ s.fault →
    (t.enc = s.enc ∧ t.dec = s.dec ∧ t.cmdIllegal = s.cmdIllegal ∧ t.mem = s.mem ∧ t.reads = s.reads) ∧
      ∃ ag a, t.fault = some (.bufferNotAdmitted ag a) ∧ nextTurn s = .agent ag ∧ admits s.plat a = false) ∧
  (∀ s, s.fault ≠ none → nextTurn s = .agent .enc ∨ nextTurn s = .agent .dec → step s = .next (takeTurn s)) ∧
  (∀ s a rest, s.fault ≠ none → HostNext s a rest → held a s = false → (∃ r, a = .rd r) ∨ (∃ r d, a = .wr r d) →
    ∃ t, step s = .next t ∧ t.script = rest ∧ t.fault = s.fault) ∧
  (∀ s t, s.fault ≠ none → step s = .next t → nextTurn s ≠ .reset →
    (s.enc.busy = true → t.enc.busy = true) ∧ (s.dec.busy = true → t.dec.busy = true)) ∧
  (∀ s : State, s.fault ≠ none → s.final = false)

/-- R202: no step clears FAULT: no command, no host write, no engine step and no reset. -/
def Obligations.FaultIsNeverCleared : Prop := ∀ s t, s.fault ≠ none → step s = .next t → t.fault ≠ none

/-- R230, R231: reset makes every register 0, so every index reads 0, neither engine has a step and no host action is held; it
changes neither BUFMEM nor FAULT. It holds in the middle of a transaction as well. That reset leaves the host's script, its
read results and the turns to come as they are is the model's choice (log 9). -/
def Obligations.ResetClearsEveryRegister : Prop :=
  ∀ s, nextTurn s = .reset →
    ∃ t, step s = .next t ∧
      t = { takeTurn s with
        enc := { value := 0#64, base := 0#64, cap := 0#64, rem := 0#64, wptr := 0#64, busy := false, done := false,
                 trunc := false },
        dec := { base := 0#64, len := 0#64, acc := 0#64, shift := 0#6, rptr := 0#64, busy := false, done := false,
                 err := 0#2, result := 0#64 },
        cmdIllegal := false } ∧
      (∀ r, hreg r t = 0#64) ∧ encEnabled t = false ∧ decEnabled t = false ∧ ∀ a, held a t = false

/-- The model's launch state (R230 for the registers; the empty memory, script, schedule and read log and the parameters are the
model's choices, log 1 to log 4; FAULT = none at launch, and with it that the state is final, is the model's reading of R202,
log 5, since R230 excludes FAULT): every index reads 0 and the state is final; and whatever the free value says comes next, the
machine idles. -/
def Obligations.ResetStateIdles : Prop :=
  (∀ r, hreg r State.reset = 0#64) ∧ State.reset.fault = none ∧ State.reset.final = true ∧
    step State.reset = .next { State.reset with freeTurns := 1 }

/-! ### Rules about the whole machine -/

/-- The model answers a next state in every state. R203 and R205 give the block no outcome that stops the host; that a fault is
a next state is the model's reading of R201 (log 5), and that the turn of an agent with no step (a held host, an idle or
faulted engine) is a next state as well is the model's choice (log 3). -/
def Obligations.EveryStepGoesOn : Prop := ∀ s, ∃ t, step s = .next t

/-- R23, R24, R25, R50: who may write what. BUFMEM changes only by a turn of ENC or an MW; CMD_ILLEGAL only by a write to CMD or
reset; an engine's registers only by that engine's turn, reset, or a host write to CMD or to one of its operand registers. Two
clauses are the model's: the parameters never change (log 1, log 13), and the list of read results changes only by a turn of
the host, so not by reset (log 4, log 9). -/
def Obligations.WhoMayWriteWhat : Prop :=
  ∀ s t, step s = .next t →
    t.plat = s.plat ∧
    (t.mem ≠ s.mem → nextTurn s = .agent .enc ∨ ∃ a v rest, HostNext s (.mw a v) rest) ∧
    (t.cmdIllegal ≠ s.cmdIllegal → nextTurn s = .reset ∨ ∃ d rest, HostNext s (.wr .cmd d) rest) ∧
    (t.enc ≠ s.enc → nextTurn s = .agent .enc ∨ nextTurn s = .reset ∨
      ∃ r d rest, HostNext s (.wr r d) rest ∧ (r = .cmd ∨ r = .encValue ∨ r = .encBase ∨ r = .encCap)) ∧
    (t.dec ≠ s.dec → nextTurn s = .agent .dec ∨ nextTurn s = .reset ∨
      ∃ r d rest, HostNext s (.wr r d) rest ∧ (r = .cmd ∨ r = .decBase ∨ r = .decLen)) ∧
    (t.reads ≠ s.reads → nextTurn s = .agent .host)

/-- R33, R245: BUSY is set only by the engine's start command and cleared only by that engine's own step, which sets DONE, or by
reset. -/
def Obligations.BusyBitsChangeOnlyAtStartAndEnd : Prop :=
  ∀ s t, step s = .next t →
    (s.enc.busy = false → t.enc.busy = true → ∃ rest, HostNext s (.wr .cmd 1#64) rest) ∧
    (s.enc.busy = true → t.enc.busy = false →
      (nextTurn s = .agent .enc ∧ s.fault = none ∧ t.enc.done = true) ∨ nextTurn s = .reset) ∧
    (s.dec.busy = false → t.dec.busy = true → ∃ rest, HostNext s (.wr .cmd 2#64) rest) ∧
    (s.dec.busy = true → t.dec.busy = false →
      (nextTurn s = .agent .dec ∧ s.fault = none ∧ t.dec.done = true) ∨ nextTurn s = .reset)

/-- R27, R28, R190: while an engine is busy, no step but reset changes its operand registers. -/
def Obligations.OperandsAreFixedWhileBusy : Prop :=
  ∀ s t, step s = .next t → nextTurn s ≠ .reset →
    (s.enc.busy = true → t.enc.value = s.enc.value ∧ t.enc.base = s.enc.base ∧ t.enc.cap = s.enc.cap) ∧
    (s.dec.busy = true → t.dec.base = s.dec.base ∧ t.dec.len = s.dec.len)

/-- R20: neither engine reads or writes the other's registers: an engine's turn leaves them alone, and replacing them changes
nothing of what the turn does. -/
def Obligations.EnginesAreIndependent : Prop :=
  (∀ s t d, nextTurn s = .agent .enc → step s = .next t →
    t.dec = s.dec ∧ step { s with dec := d } = .next { t with dec := d }) ∧
  (∀ s t e, nextTurn s = .agent .dec → step s = .next t →
    t.enc = s.enc ∧ step { s with enc := e } = .next { t with enc := e })

/-- R58: a turn of ENC reads no byte of BUFMEM: over any other content `m` it does the same to all else and to BUFMEM, the new
content `m'` being `m` where the turn makes no write, and else `m` with R102's byte of ENC_REM, the same as over the content it
had, at its pointer's address. And a byte that the turn changes is the one at its pointer, below its capacity (in the states of
the invariant). -/
def Obligations.EncoderFootprint : Prop :=
  (∀ s t m, nextTurn s = .agent .enc → step s = .next t →
    ∃ m', step { s with mem := m } = .next { t with mem := m' } ∧
      (¬ (encEnabled s = true ∧ s.enc.wptr ≠ s.enc.cap ∧
          admits s.plat (effAddr s.plat s.enc.base s.enc.wptr) = true) → m' = m ∧ t.mem = s.mem) ∧
      (encEnabled s = true ∧ s.enc.wptr ≠ s.enc.cap ∧
          admits s.plat (effAddr s.plat s.enc.base s.enc.wptr) = true →
        (m.wf = true → m'.read (effAddr s.plat s.enc.base s.enc.wptr).toNat = wireByte s.enc.rem) ∧
        (s.mem.wf = true → t.mem.read (effAddr s.plat s.enc.base s.enc.wptr).toNat = wireByte s.enc.rem) ∧
        ∀ b, b ≠ (effAddr s.plat s.enc.base s.enc.wptr).toNat →
          m'.read b = m.read b ∧ t.mem.read b = s.mem.read b)) ∧
  (∀ s t b, MachineInv s → nextTurn s = .agent .enc → step s = .next t → t.mem.read b ≠ s.mem.read b →
    b = (effAddr s.plat s.enc.base s.enc.wptr).toNat ∧ s.enc.wptr.toNat < s.enc.cap.toNat ∧
      t.enc.wptr.toNat = s.enc.wptr.toNat + 1)

/-- R59: a turn of DEC changes no byte of BUFMEM and reads none but the one at its pointer, and none at all where its pointer
has reached DEC_LEN: with any other content that agrees on that byte it does the same. -/
def Obligations.DecoderFootprint : Prop :=
  ∀ s t m, nextTurn s = .agent .dec → step s = .next t →
    (s.dec.rptr = s.dec.len ∨
      m.read (effAddr s.plat s.dec.base s.dec.rptr).toNat = s.mem.read (effAddr s.plat s.dec.base s.dec.rptr).toNat) →
    t.mem = s.mem ∧ step { s with mem := m } = .next { t with mem := m }

/-- R62, R209: a step of ENC and a step of DEC that meet no common byte and raise no fault give the same state in either
order. -/
def Obligations.EngineStepsCommute : Prop :=
  ∀ s rest, encAddr s ≠ decAddr s →
    (encTurn s).fault = none → (decTurn s).fault = none →
    run 2 { s with schedule := .agent .enc :: .agent .dec :: rest } =
      run 2 { s with schedule := .agent .dec :: .agent .enc :: rest }

/-- R66: when the host writes the byte that ENC is about to write, the byte left is that of the later step, in either order. -/
def Obligations.RaceTakesTheLaterWrite : Prop :=
  ∀ s v script' rest, s.mem.wf = true → encEnabled s = true → s.enc.wptr ≠ s.enc.cap →
    admits s.plat (encAddr s) = true → s.script = .mw (encAddr s) v :: script' →
    (∃ t, run 2 { s with schedule := .agent .enc :: .agent .host :: rest } = .next t ∧
      t.mem.read (encAddr s).toNat = v) ∧
    (∃ t, run 2 { s with schedule := .agent .host :: .agent .enc :: rest } = .next t ∧
      t.mem.read (encAddr s).toNat = wireByte s.enc.rem)

/-! ### Invariants -/

/-- The launch states satisfy the invariant, for all legal parameters and every content of BUFMEM (R4, R5, R7, R230); so does
the state after reset. -/
def Obligations.LaunchSatisfiesInvariant : Prop :=
  MachineInv State.reset ∧
    ∀ p m script schedule, p.wf = true → MemInv p m → MachineInv (State.launch p m script schedule)

/-- R27, R28, R33, R79, R148, R153: every step, of any agent or reset, keeps the invariant. -/
def Obligations.EveryStepKeepsInvariant : Prop := ∀ s t, MachineInv s → step s = .next t → MachineInv t

/-- R27, R28, R58, R66, R108, R242: a step that is no host write into the span of a busy ENC keeps the written bytes of a running
ENC a prefix of enc(ENC_VALUE); one that writes no byte of the span of a busy DEC keeps the accumulator of a running DEC the sum
of the chunks of the bytes it has read, all of them continuation bytes; and a step that respects R242 is of both kinds. -/
def Obligations.RaceFreeStepsKeepPrefixes : Prop :=
  (∀ s t, MachineInv s → (s.enc.busy = true → EncSpanKept s) → step s = .next t → WrittenPrefix s → WrittenPrefix t) ∧
  (∀ s t, MachineInv s → (s.dec.busy = true → DecSpanKept s) → step s = .next t → ReadPrefix s → ReadPrefix t) ∧
  (∀ s, MachineInv s → RaceFree s → (s.enc.busy = true → EncSpanKept s) ∧ (s.dec.busy = true → DecSpanKept s))

/-! ### Whole transactions -/

/-- R72, R74: enc(v) has 1 to 10 bytes, as many as v's range says; exactly the last has C = 0; byte k carries bits 7k+6..7k; the
tenth byte is 0x01; the chunks add up to v; and no encoding of more than one byte ends in a zero chunk. -/
def Obligations.ShapeOfAnEncoding : Prop :=
  ∀ v : Word,
    (1 ≤ encLen v ∧ encLen v ≤ 10) ∧
    (∀ j, 1 ≤ j → j ≤ 9 → (encLen v ≤ j ↔ v.toNat < 2 ^ (7 * j))) ∧
    (∀ k, k < encLen v → (wireMore (encByte v k) = false ↔ k = encLen v - 1)) ∧
    (∀ k, (encByte v k).extractLsb' 0 7 = (v >>> (7 * k)).extractLsb' 0 7) ∧
    (2 ^ 63 ≤ v.toNat → encByte v 9 = 0x01#8) ∧
    chunkSum (encByte v) (encLen v) = v ∧
    (1 < encLen v → wireChunk (encByte v (encLen v - 1)) ≠ 0#64)

/-- R107 where ENC alone runs: from `WR CMD, 1` in exactly min(c, n) + (1 if c < n) ENC steps, at most 10, with the bytes of
enc(v) written at offsets below min(c, n) and every other byte and register as before. `OffsetsDistinct` holds on every part with
ADDR_W of 4 or more; on a narrower one, where offsets can share an address, the byte left is that of the last (log 10). -/
def Obligations.EncodeTransaction : Prop :=
  ∀ (s : State) (script' : List HostAction) (rest : List Turn) (c n w steps : Nat),
    c = s.enc.cap.toNat → n = encLen s.enc.value → w = min c n → steps = w + (if c < n then 1 else 0) →
    s.plat.wf = true → s.mem.wf = true → s.fault = none → s.enc.busy = false →
    s.script = .wr .cmd 1#64 :: script' → s.schedule = .agent .host :: (List.replicate steps (.agent .enc) ++ rest) →
    SpanAdmitted s.plat s.enc.base w →
    steps ≤ 10 ∧
    ∃ t, run (1 + steps) s = .next t ∧
      t = { s with
        script := script', schedule := rest, cmdIllegal := false, mem := t.mem,
        enc := { s.enc with
          rem := s.enc.value >>> (7 * w), wptr := BitVec.ofNat 64 w, busy := false, done := true,
          trunc := decide (c < n) } } ∧
      (∀ k, k < w → LastAtItsAddress s.plat s.enc.base w k → byteAt t s.enc.base k = encByte s.enc.value k) ∧
      (OffsetsDistinct s.plat w → ∀ k, k < w → byteAt t s.enc.base k = encByte s.enc.value k) ∧
      (∀ b, (∀ k, k < w → b ≠ (effAddr s.plat s.enc.base (BitVec.ofNat 64 k)).toNat) → t.mem.read b = s.mem.read b)

/-- R147 where DEC alone runs: from `WR CMD, 2`, for input bytes b_k, in the three cases of the rule, with DEC_COUNT and the number
of steps as it says. -/
def Obligations.DecodeTransaction : Prop :=
  ∀ (s : State) (script' : List HostAction) (rest : List Turn) (L steps count : Nat) (err : BitVec 2) (result : Word),
    L = s.dec.len.toNat →
    ((∃ t, firstTerminator (byteAt s s.dec.base) (min L 9) = some t ∧ err = errOK ∧ count = t + 1 ∧ steps = t + 1 ∧
        result = chunkSum (byteAt s s.dec.base) (t + 1)) ∨
      (firstTerminator (byteAt s s.dec.base) (min L 9) = none ∧ L ≤ 9 ∧ err = errEOF ∧ count = L ∧ steps = L + 1 ∧
        result = 0#64) ∨
      (firstTerminator (byteAt s s.dec.base) (min L 9) = none ∧ 10 ≤ L ∧ err = errOVF ∧ count = 9 ∧ steps = 10 ∧
        result = 0#64)) →
    s.plat.wf = true → s.fault = none → s.dec.busy = false → SpanAdmitted s.plat s.dec.base count →
    s.script = .wr .cmd 2#64 :: script' → s.schedule = .agent .host :: (List.replicate steps (.agent .dec) ++ rest) →
    steps ≤ 10 ∧ count ≤ 9 ∧
    ∃ t, run (1 + steps) s = .next t ∧
      t = { s with script := script', schedule := rest, cmdIllegal := false, dec := t.dec } ∧
      t.dec.busy = false ∧ t.dec.done = true ∧ t.dec.err = err ∧ t.dec.result = result ∧
      t.dec.rptr = BitVec.ofNat 64 count ∧ t.dec.base = s.dec.base ∧ t.dec.len = s.dec.len

/-- R107, R108 under every interleaving: however the steps of ENC, DEC and the host are ordered, as long as the host keeps out of
the span and no reset comes, an encode transaction ends with R107's count, flag and bytes, after R107's number of ENC steps. -/
def Obligations.EncodeUnderAnyInterleaving : Prop :=
  ∀ (k : Nat) (s t : State) (c n : Nat),
    c = s.enc.cap.toNat → n = encLen s.enc.value →
    MachineInv s → s.enc.busy = true → s.enc.wptr = 0#64 → EncRun k s t → t.enc.busy = false →
    t.enc.done = true ∧ t.enc.wptr.toNat = min c n ∧ t.enc.trunc = decide (c < n) ∧
      t.enc.value = s.enc.value ∧ t.enc.base = s.enc.base ∧ t.enc.cap = s.enc.cap ∧
      (∀ i, i < min c n → LastAtItsAddress s.plat s.enc.base (min c n) i →
        byteAt t s.enc.base i = encByte s.enc.value i) ∧
      (OffsetsDistinct s.plat (min c n) → ∀ i, i < min c n → byteAt t s.enc.base i = encByte s.enc.value i) ∧
      k = min c n + (if c < n then 1 else 0)

/-- R147 under every interleaving: however the steps are ordered, as long as nothing writes the span and no reset comes, a decode
transaction ends with R147's result, code and count for the bytes that lay there at its start, after R147's number of DEC
steps. -/
def Obligations.DecodeUnderAnyInterleaving : Prop :=
  ∀ (k : Nat) (s t : State) (L : Nat), L = s.dec.len.toNat →
    MachineInv s → s.dec.busy = true → s.dec.rptr = 0#64 → DecRun k s t → t.dec.busy = false →
    t.dec.done = true ∧
      (∀ j, firstTerminator (byteAt s s.dec.base) (min L 9) = some j →
        t.dec.err = errOK ∧ t.dec.result = chunkSum (byteAt s s.dec.base) (j + 1) ∧ t.dec.rptr.toNat = j + 1 ∧ k = j + 1) ∧
      (firstTerminator (byteAt s s.dec.base) (min L 9) = none → L ≤ 9 →
        t.dec.err = errEOF ∧ t.dec.result = 0#64 ∧ t.dec.rptr.toNat = L ∧ k = L + 1) ∧
      (firstTerminator (byteAt s s.dec.base) (min L 9) = none → 10 ≤ L →
        t.dec.err = errOVF ∧ t.dec.result = 0#64 ∧ t.dec.rptr.toNat = 9 ∧ k = 10)

/-- R154: encode a value, then decode the bytes where they lie: a value below 2^63 comes back, with DEC_ERR = OK and
DEC_COUNT = n(v), for every DEC_LEN of n(v) or more; for a value of 2^63 or more and DEC_LEN of 10 or more, OVF and 0. -/
def Obligations.EncodeThenDecodeRoundTrip : Prop :=
  ∀ (s : State) (script' : List HostAction) (rest : List Turn) (n : Nat),
    n = encLen s.enc.value → n ≤ s.enc.cap.toNat → n ≤ s.dec.len.toNat → s.dec.base = s.enc.base →
    s.plat.wf = true → s.mem.wf = true → s.fault = none → s.enc.busy = false → s.dec.busy = false →
    OffsetsDistinct s.plat n → SpanAdmitted s.plat s.enc.base n →
    s.script = .wr .cmd 1#64 :: .wr .cmd 2#64 :: script' →
    s.schedule = .agent .host :: (List.replicate n (.agent .enc) ++
      .agent .host :: (List.replicate n (.agent .dec) ++ rest)) →
    ∃ t, run (2 + 2 * n) s = .next t ∧ t.script = script' ∧ t.schedule = rest ∧ t.fault = none ∧
      t.enc.wptr = BitVec.ofNat 64 n ∧ t.dec.done = true ∧
      (s.enc.value.toNat < 2 ^ 63 →
        t.dec.result = s.enc.value ∧ t.dec.err = errOK ∧ t.dec.rptr = BitVec.ofNat 64 n) ∧
      (2 ^ 63 ≤ s.enc.value.toNat → t.dec.result = 0#64 ∧ t.dec.err = errOVF)

/-- R109, R110, R150: value 0 with capacity writes the one byte 0x00; capacity 0 writes nothing and truncates, and length 0 reads
nothing and gives EOF, whatever is admitted. -/
def Obligations.ZeroValueCapacityAndLength : Prop :=
  (∀ s script' rest, s.enc.value = 0#64 → s.enc.cap ≠ 0#64 → s.plat.wf = true → s.mem.wf = true → s.fault = none →
    s.enc.busy = false → admits s.plat (effAddr s.plat s.enc.base 0#64) = true →
    s.script = .wr .cmd 1#64 :: script' → s.schedule = .agent .host :: .agent .enc :: rest →
    ∃ t, run 2 s = .next t ∧ t.enc.wptr = 1#64 ∧ t.enc.trunc = false ∧ t.enc.busy = false ∧
      t.mem.read (effAddr s.plat s.enc.base 0#64).toNat = 0x00#8 ∧
      ∀ b, b ≠ (effAddr s.plat s.enc.base 0#64).toNat → t.mem.read b = s.mem.read b) ∧
  (∀ s script' rest, s.enc.cap = 0#64 → s.fault = none → s.enc.busy = false →
    s.script = .wr .cmd 1#64 :: script' → s.schedule = .agent .host :: .agent .enc :: rest →
    run 2 s = .next
      { s with
        script := script', schedule := rest, cmdIllegal := false,
        enc := { s.enc with rem := s.enc.value, wptr := 0#64, busy := false, done := true, trunc := true } }) ∧
  (∀ s script' rest, s.dec.len = 0#64 → s.fault = none → s.dec.busy = false →
    s.script = .wr .cmd 2#64 :: script' → s.schedule = .agent .host :: .agent .dec :: rest →
    run 2 s = .next
      { s with
        script := script', schedule := rest, cmdIllegal := false,
        dec := { s.dec with
          acc := 0#64, shift := 0#6, rptr := 0#64, result := 0#64, err := 1#2, busy := false, done := true } })

/-- R244: from any state of the invariant with an engine busy and no fault, ten turns of that engine end the transaction, or
record a fault. -/
def Obligations.TransactionsEndWithinTenSteps : Prop :=
  (∀ s rest, MachineInv s → s.fault = none → s.enc.busy = true → s.schedule = List.replicate 10 (.agent .enc) ++ rest →
    ∃ t, run 10 s = .next t ∧ t.schedule = rest ∧ (t.enc.busy = false ∧ t.enc.done = true ∨ t.fault ≠ none)) ∧
  (∀ s rest, MachineInv s → s.fault = none → s.dec.busy = true → s.schedule = List.replicate 10 (.agent .dec) ++ rest →
    ∃ t, run 10 s = .next t ∧ t.schedule = rest ∧ (t.dec.busy = false ∧ t.dec.done = true ∨ t.fault ≠ none))
end

