-- ==== Sys2Proof/Laws/Decode.lean ====
section
/-! SUPPORT. What the decoder and the encoder do, said once (30_encoding.md R75 to R77). -/

namespace Sys2Proof

/-- The two fields of a command word make up the word. -/
theorem command_word_eq_fields (d : Word) : d = rsvdField d ++ opcField d := by
  apply BitVec.eq_of_getLsbD_eq
  intro i hi
  simp only [rsvdField, opcField, BitVec.getLsbD_append, BitVec.getLsbD_extractLsb']
  by_cases h : i < 4
  · simp [h]
  · have h2 : i - 4 < 60 := by omega
    have h3 : 4 + (i - 4) = i := by omega
    simp [h, h2, h3]

@[simp] theorem decode_encode (i : Instr) : decode (encode i) = .ok i := by cases i <;> rfl

/-- A word that decodes to a command is that command's word. -/
theorem eq_encode_of_decode {d : Word} {i : Instr} (h : decode d = .ok i) : d = encode i := by
  unfold decode at h
  split at h
  case isFalse => simp at h
  case isTrue hr =>
    have key : ∀ k : BitVec 4, (opcField d).toNat = k.toNat → d = 0#60 ++ k := fun k hk => by
      rw [command_word_eq_fields d, hr, BitVec.eq_of_toNat_eq hk]
    split at h <;> simp at h <;> subst h
    · exact key 0#4 ‹_›
    · exact key 1#4 ‹_›
    · exact key 2#4 ‹_›

/-- The opcode table and the decoder agree, row by row. -/
theorem decode_eq_ok_iff_row (d : Word) (i : Instr) :
    decode d = .ok i ↔ ∃ row ∈ opcodeTable, d &&& row.mask = row.pattern ∧ row.instr = i := by
  have allOnes : ∀ x : Word, x &&& 0xFFFFFFFFFFFFFFFF#64 = x := fun x => by
    have : (0xFFFFFFFFFFFFFFFF#64) = BitVec.allOnes 64 := by decide
    rw [this, BitVec.and_allOnes]
  constructor
  · intro h
    have hd := eq_encode_of_decode h
    subst hd
    cases i <;> simp [opcodeTable, encode, opcodeOf]
  · rintro ⟨row, hrow, hd, rfl⟩
    simp only [opcodeTable, List.mem_cons, List.not_mem_nil, or_false] at hrow
    rcases hrow with rfl | rfl | rfl <;> (simp only [allOnes] at hd; subst hd; rfl)

/-- No word belongs to two rows of the opcode table. -/
theorem opcodeTable_disjoint :
    opcodeTable.Pairwise (fun r q => r.pattern &&& (r.mask &&& q.mask) ≠ q.pattern &&& (r.mask &&& q.mask)) := by
  decide

/-- Where the host's index leads and back (R30). -/
@[simp] theorem index_ofIndex (i : Fin 16) : (HReg.ofIndex i).index = i := by revert i; decide

end Sys2Proof
end

