-- ==== Sys2Proof/Laws/State.lean ====
section
/-! SUPPORT. One lemma per field per update, so that no later proof unfolds a record update. -/

namespace Sys2Proof.Machine

section setEnc
variable (s : State) (e : EncRegs)

@[simp] theorem State.setEnc_enc : (s.setEnc e).enc = e := rfl
@[simp] theorem State.setEnc_dec : (s.setEnc e).dec = s.dec := rfl
@[simp] theorem State.setEnc_cmdIllegal : (s.setEnc e).cmdIllegal = s.cmdIllegal := rfl
@[simp] theorem State.setEnc_fault : (s.setEnc e).fault = s.fault := rfl
@[simp] theorem State.setEnc_mem : (s.setEnc e).mem = s.mem := rfl
@[simp] theorem State.setEnc_plat : (s.setEnc e).plat = s.plat := rfl
@[simp] theorem State.setEnc_script : (s.setEnc e).script = s.script := rfl
@[simp] theorem State.setEnc_reads : (s.setEnc e).reads = s.reads := rfl
@[simp] theorem State.setEnc_schedule : (s.setEnc e).schedule = s.schedule := rfl
@[simp] theorem State.setEnc_freeTurns : (s.setEnc e).freeTurns = s.freeTurns := rfl

end setEnc

section setDec
variable (s : State) (d : DecRegs)

@[simp] theorem State.setDec_enc : (s.setDec d).enc = s.enc := rfl
@[simp] theorem State.setDec_dec : (s.setDec d).dec = d := rfl
@[simp] theorem State.setDec_cmdIllegal : (s.setDec d).cmdIllegal = s.cmdIllegal := rfl
@[simp] theorem State.setDec_fault : (s.setDec d).fault = s.fault := rfl
@[simp] theorem State.setDec_mem : (s.setDec d).mem = s.mem := rfl
@[simp] theorem State.setDec_plat : (s.setDec d).plat = s.plat := rfl
@[simp] theorem State.setDec_script : (s.setDec d).script = s.script := rfl
@[simp] theorem State.setDec_reads : (s.setDec d).reads = s.reads := rfl
@[simp] theorem State.setDec_schedule : (s.setDec d).schedule = s.schedule := rfl
@[simp] theorem State.setDec_freeTurns : (s.setDec d).freeTurns = s.freeTurns := rfl

end setDec

section setCmdIllegal
variable (s : State) (b : Bool)

@[simp] theorem State.setCmdIllegal_enc : (s.setCmdIllegal b).enc = s.enc := rfl
@[simp] theorem State.setCmdIllegal_dec : (s.setCmdIllegal b).dec = s.dec := rfl
@[simp] theorem State.setCmdIllegal_cmdIllegal : (s.setCmdIllegal b).cmdIllegal = b := rfl
@[simp] theorem State.setCmdIllegal_fault : (s.setCmdIllegal b).fault = s.fault := rfl
@[simp] theorem State.setCmdIllegal_mem : (s.setCmdIllegal b).mem = s.mem := rfl
@[simp] theorem State.setCmdIllegal_plat : (s.setCmdIllegal b).plat = s.plat := rfl
@[simp] theorem State.setCmdIllegal_script : (s.setCmdIllegal b).script = s.script := rfl
@[simp] theorem State.setCmdIllegal_reads : (s.setCmdIllegal b).reads = s.reads := rfl
@[simp] theorem State.setCmdIllegal_schedule : (s.setCmdIllegal b).schedule = s.schedule := rfl
@[simp] theorem State.setCmdIllegal_freeTurns : (s.setCmdIllegal b).freeTurns = s.freeTurns := rfl

end setCmdIllegal

section setFault
variable (s : State) (f : Option Fault)

@[simp] theorem State.setFault_enc : (s.setFault f).enc = s.enc := rfl
@[simp] theorem State.setFault_dec : (s.setFault f).dec = s.dec := rfl
@[simp] theorem State.setFault_cmdIllegal : (s.setFault f).cmdIllegal = s.cmdIllegal := rfl
@[simp] theorem State.setFault_fault : (s.setFault f).fault = f := rfl
@[simp] theorem State.setFault_mem : (s.setFault f).mem = s.mem := rfl
@[simp] theorem State.setFault_plat : (s.setFault f).plat = s.plat := rfl
@[simp] theorem State.setFault_script : (s.setFault f).script = s.script := rfl
@[simp] theorem State.setFault_reads : (s.setFault f).reads = s.reads := rfl
@[simp] theorem State.setFault_schedule : (s.setFault f).schedule = s.schedule := rfl
@[simp] theorem State.setFault_freeTurns : (s.setFault f).freeTurns = s.freeTurns := rfl

end setFault

section setMem
variable (s : State) (m : Memory)

@[simp] theorem State.setMem_enc : (s.setMem m).enc = s.enc := rfl
@[simp] theorem State.setMem_dec : (s.setMem m).dec = s.dec := rfl
@[simp] theorem State.setMem_cmdIllegal : (s.setMem m).cmdIllegal = s.cmdIllegal := rfl
@[simp] theorem State.setMem_fault : (s.setMem m).fault = s.fault := rfl
@[simp] theorem State.setMem_mem : (s.setMem m).mem = m := rfl
@[simp] theorem State.setMem_plat : (s.setMem m).plat = s.plat := rfl
@[simp] theorem State.setMem_script : (s.setMem m).script = s.script := rfl
@[simp] theorem State.setMem_reads : (s.setMem m).reads = s.reads := rfl
@[simp] theorem State.setMem_schedule : (s.setMem m).schedule = s.schedule := rfl
@[simp] theorem State.setMem_freeTurns : (s.setMem m).freeTurns = s.freeTurns := rfl

end setMem

section setScript
variable (s : State) (l : List HostAction)

@[simp] theorem State.setScript_enc : (s.setScript l).enc = s.enc := rfl
@[simp] theorem State.setScript_dec : (s.setScript l).dec = s.dec := rfl
@[simp] theorem State.setScript_cmdIllegal : (s.setScript l).cmdIllegal = s.cmdIllegal := rfl
@[simp] theorem State.setScript_fault : (s.setScript l).fault = s.fault := rfl
@[simp] theorem State.setScript_mem : (s.setScript l).mem = s.mem := rfl
@[simp] theorem State.setScript_plat : (s.setScript l).plat = s.plat := rfl
@[simp] theorem State.setScript_script : (s.setScript l).script = l := rfl
@[simp] theorem State.setScript_reads : (s.setScript l).reads = s.reads := rfl
@[simp] theorem State.setScript_schedule : (s.setScript l).schedule = s.schedule := rfl
@[simp] theorem State.setScript_freeTurns : (s.setScript l).freeTurns = s.freeTurns := rfl

end setScript

section setReads
variable (s : State) (l : List HostRead)

@[simp] theorem State.setReads_enc : (s.setReads l).enc = s.enc := rfl
@[simp] theorem State.setReads_dec : (s.setReads l).dec = s.dec := rfl
@[simp] theorem State.setReads_cmdIllegal : (s.setReads l).cmdIllegal = s.cmdIllegal := rfl
@[simp] theorem State.setReads_fault : (s.setReads l).fault = s.fault := rfl
@[simp] theorem State.setReads_mem : (s.setReads l).mem = s.mem := rfl
@[simp] theorem State.setReads_plat : (s.setReads l).plat = s.plat := rfl
@[simp] theorem State.setReads_script : (s.setReads l).script = s.script := rfl
@[simp] theorem State.setReads_reads : (s.setReads l).reads = l := rfl
@[simp] theorem State.setReads_schedule : (s.setReads l).schedule = s.schedule := rfl
@[simp] theorem State.setReads_freeTurns : (s.setReads l).freeTurns = s.freeTurns := rfl

end setReads

section setSchedule
variable (s : State) (l : List Turn)

@[simp] theorem State.setSchedule_enc : (s.setSchedule l).enc = s.enc := rfl
@[simp] theorem State.setSchedule_dec : (s.setSchedule l).dec = s.dec := rfl
@[simp] theorem State.setSchedule_cmdIllegal : (s.setSchedule l).cmdIllegal = s.cmdIllegal := rfl
@[simp] theorem State.setSchedule_fault : (s.setSchedule l).fault = s.fault := rfl
@[simp] theorem State.setSchedule_mem : (s.setSchedule l).mem = s.mem := rfl
@[simp] theorem State.setSchedule_plat : (s.setSchedule l).plat = s.plat := rfl
@[simp] theorem State.setSchedule_script : (s.setSchedule l).script = s.script := rfl
@[simp] theorem State.setSchedule_reads : (s.setSchedule l).reads = s.reads := rfl
@[simp] theorem State.setSchedule_schedule : (s.setSchedule l).schedule = l := rfl
@[simp] theorem State.setSchedule_freeTurns : (s.setSchedule l).freeTurns = s.freeTurns := rfl

end setSchedule

section setFreeTurns
variable (s : State) (n : Nat)

@[simp] theorem State.setFreeTurns_enc : (s.setFreeTurns n).enc = s.enc := rfl
@[simp] theorem State.setFreeTurns_dec : (s.setFreeTurns n).dec = s.dec := rfl
@[simp] theorem State.setFreeTurns_cmdIllegal : (s.setFreeTurns n).cmdIllegal = s.cmdIllegal := rfl
@[simp] theorem State.setFreeTurns_fault : (s.setFreeTurns n).fault = s.fault := rfl
@[simp] theorem State.setFreeTurns_mem : (s.setFreeTurns n).mem = s.mem := rfl
@[simp] theorem State.setFreeTurns_plat : (s.setFreeTurns n).plat = s.plat := rfl
@[simp] theorem State.setFreeTurns_script : (s.setFreeTurns n).script = s.script := rfl
@[simp] theorem State.setFreeTurns_reads : (s.setFreeTurns n).reads = s.reads := rfl
@[simp] theorem State.setFreeTurns_schedule : (s.setFreeTurns n).schedule = s.schedule := rfl
@[simp] theorem State.setFreeTurns_freeTurns : (s.setFreeTurns n).freeTurns = n := rfl

end setFreeTurns

end Sys2Proof.Machine
end

