-- ==== Sys2Proof/Laws/Memory.lean ====
section
/-! SUPPORT. The buffer memory: read after write, and the canonical form (20_memory.md R52, R53). -/

namespace Sys2Proof.Machine

theorem Memory.read_eq_unlisted {m : Memory} {a : Nat} (h : ∀ c ∈ m, c.1 ≠ a) : m.read a = Memory.unlisted := by
  induction m with
  | nil => rfl
  | cons c rest ih =>
    obtain ⟨b, w⟩ := c
    have hb : a ≠ b := fun e => h (b, w) List.mem_cons_self e.symm
    simp [Memory.read, hb, ih (fun c hc => h c (List.mem_cons_of_mem _ hc))]

theorem Memory.wf_cons {b : Nat} {w : Byte} {rest : Memory} :
    Memory.wf ((b, w) :: rest) = true ↔ w ≠ Memory.unlisted ∧ (∀ c ∈ rest, b < c.1) ∧ Memory.wf rest = true := by
  simp [Memory.wf, and_assoc]

/-- A read after a write to the same address gives the byte written. -/
theorem Memory.read_write_same {m : Memory} (h : m.wf = true) (a : Nat) (v : Byte) : (m.write a v).read a = v := by
  induction m with
  | nil => by_cases hv : v = Memory.unlisted <;> simp [Memory.write, Memory.read, hv]
  | cons c rest ih =>
    obtain ⟨b, w⟩ := c
    obtain ⟨-, hlt, hrest⟩ := Memory.wf_cons.1 h
    unfold Memory.write
    split
    case isTrue hab =>
      split
      case isTrue hv =>
        rw [hv]
        apply Memory.read_eq_unlisted
        intro c hc
        rcases List.mem_cons.1 hc with rfl | hc
        · simp; omega
        · have := hlt c hc; omega
      case isFalse => simp [Memory.read]
    case isFalse hab =>
      split
      case isTrue heq =>
        split
        case isTrue hv =>
          rw [hv]
          apply Memory.read_eq_unlisted
          intro c hc
          have := hlt c hc
          omega
        case isFalse => simp [Memory.read]
      case isFalse hne => simp [Memory.read, hne, ih hrest]

/-- A write leaves every other address alone, in any memory. -/
theorem Memory.read_write_other (m : Memory) {a b : Nat} (v : Byte) (h : b ≠ a) : (m.write a v).read b = m.read b := by
  induction m with
  | nil => by_cases hv : v = Memory.unlisted <;> simp [Memory.write, Memory.read, hv, h]
  | cons c rest ih =>
    obtain ⟨d, w⟩ := c
    unfold Memory.write
    split
    · split <;> simp [Memory.read, h]
    · split
      case isTrue heq => subst heq; split <;> simp [Memory.read, h]
      case isFalse => simp [Memory.read, ih]

theorem Memory.mem_of_mem_write {m : Memory} {a : Nat} {v : Byte} {c : Host.Cell} (h : c ∈ m.write a v) :
    c = (a, v) ∨ c ∈ m := by
  induction m with
  | nil =>
    unfold Memory.write at h
    split at h <;> simp_all
  | cons d rest ih =>
    obtain ⟨b, w⟩ := d
    unfold Memory.write at h
    split at h
    · split at h
      · exact .inr h
      · exact (List.mem_cons.1 h).imp id id
    · split at h
      · split at h
        · exact .inr (List.mem_cons_of_mem _ h)
        · exact (List.mem_cons.1 h).imp id (List.mem_cons_of_mem _)
      · rcases List.mem_cons.1 h with rfl | h
        · exact .inr List.mem_cons_self
        · exact (ih h).imp id (List.mem_cons_of_mem _)

/-- A write keeps the canonical form. -/
theorem Memory.write_wf {m : Memory} (h : m.wf = true) (a : Nat) (v : Byte) : (m.write a v).wf = true := by
  induction m with
  | nil => by_cases hv : v = Memory.unlisted <;> simp [Memory.write, Memory.wf, hv]
  | cons c rest ih =>
    obtain ⟨b, w⟩ := c
    obtain ⟨hw, hlt, hrest⟩ := Memory.wf_cons.1 h
    unfold Memory.write
    split
    case isTrue hab =>
      split
      case isTrue => exact h
      case isFalse hv =>
        refine Memory.wf_cons.2 ⟨hv, fun c hc => ?_, h⟩
        rcases List.mem_cons.1 hc with rfl | hc
        · exact hab
        · have := hlt c hc; omega
    case isFalse hab =>
      split
      case isTrue heq =>
        split
        case isTrue => exact hrest
        case isFalse hv => exact Memory.wf_cons.2 ⟨hv, fun c hc => by have := hlt c hc; omega, hrest⟩
      case isFalse hne =>
        refine Memory.wf_cons.2 ⟨hw, fun c hc => ?_, ih hrest⟩
        rcases Memory.mem_of_mem_write hc with rfl | hc
        · simp; omega
        · exact hlt c hc

theorem reset_mem_wf : State.reset.mem.wf = true := rfl

/-- A write at an admitted address keeps what holds of the memory (canonical form, addresses in range). -/
theorem MemInv.write {p : Platform} {m : Memory} (h : MemInv p m) {a : Addr} (ha : admits p a = true) (v : Byte) :
    MemInv p (m.write a.toNat v) where
  canonical := Memory.write_wf h.canonical _ _
  in_space := fun c hc => by
    have hlt : a.toNat < 2 ^ p.addrW := by
      unfold admits at ha
      simp only [Bool.and_eq_true, decide_eq_true_eq] at ha
      exact ha.1
    rcases Memory.mem_of_mem_write hc with rfl | hc
    · exact hlt
    · exact h.in_space c hc

end Sys2Proof.Machine
end

