-- ==== Sys2Proof/Laws/Ops.lean ====
section
/-! SUPPORT. One lemma per shared operation that says what it does: truncation and addresses, checked buffer accesses, the
schedule, faults and reset. -/

namespace Sys2Proof.Machine

/-! ### Widths and addresses -/

theorem truncTo_toNat (w : Nat) (x : Word) : (truncTo w x).toNat = x.toNat % 2 ^ w := by
  have h := Nat.mod_le x.toNat (2 ^ w)
  have := x.isLt
  simp only [truncTo, BitVec.toNat_ofNat]
  omega

theorem truncTo_lt (w : Nat) (x : Word) : (truncTo w x).toNat < 2 ^ w := by
  rw [truncTo_toNat]
  exact Nat.mod_lt _ (Nat.two_pow_pos w)

/-- Truncation to the width of the word itself changes nothing. -/
@[simp] theorem truncTo_64 (x : Word) : truncTo 64 x = x := by
  apply BitVec.eq_of_toNat_eq
  rw [truncTo_toNat]
  exact Nat.mod_eq_of_lt x.isLt

theorem Platform.wf_iff {p : Platform} :
    p.wf = true ↔ (1 ≤ p.addrW ∧ p.addrW ≤ 64) ∧ 4 ≤ p.lenW ∧ p.lenW ≤ 64 := by
  simp [Platform.wf, and_assoc]

/-- A pointer below 15 counts up without wrapping at any legal LEN_W (R28). -/
theorem truncTo_succ_toNat {w : Nat} (hw : 4 ≤ w) {x : Word} (hx : x.toNat < 15) :
    (truncTo w (x + 1#64)).toNat = x.toNat + 1 := by
  have hp : 2 ^ 4 ≤ 2 ^ w := Nat.pow_le_pow_right (by omega) hw
  rw [truncTo_toNat, BitVec.toNat_add]
  simp only [BitVec.toNat_ofNat]
  rw [Nat.mod_eq_of_lt (a := x.toNat + _) (by omega)]
  exact Nat.mod_eq_of_lt (by omega)

/-- R54. -/
theorem effAddr_toNat {p : Platform} (hp : p.addrW ≤ 64) (base k : Word) :
    (effAddr p base k).toNat = (base.toNat + k.toNat) % 2 ^ p.addrW := by
  have hd : 2 ^ p.addrW ∣ 2 ^ 64 := Nat.pow_dvd_pow 2 hp
  rw [effAddr, truncTo_toNat, BitVec.toNat_add, Nat.mod_mod_of_dvd _ hd]

/-- Offsets closer together than 2^ADDR_W have different addresses (R54; log 10). -/
theorem effAddr_inj {p : Platform} (hp : p.addrW ≤ 64) (base : Word) {j k n : Nat} (hn : n ≤ 2 ^ p.addrW)
    (hj : j < n) (hk : k < n) (hjk : j ≠ k) :
    (effAddr p base (BitVec.ofNat 64 j)).toNat ≠ (effAddr p base (BitVec.ofNat 64 k)).toNat := by
  have hle : 2 ^ p.addrW ≤ 2 ^ 64 := Nat.pow_le_pow_right (by omega) hp
  rw [effAddr_toNat hp, effAddr_toNat hp, BitVec.toNat_ofNat, BitVec.toNat_ofNat,
    Nat.mod_eq_of_lt (a := j) (by omega), Nat.mod_eq_of_lt (a := k) (by omega)]
  intro h
  have h2 : j ≡ k [MOD 2 ^ p.addrW] := Nat.ModEq.add_left_cancel' base.toNat h
  exact hjk (h2.eq_of_lt_of_lt (by omega) (by omega))

/-! ### Buffer accesses -/

theorem memRead_of_admits {s : State} {a : Addr} (h : admits s.plat a = true) (ag : Agent) :
    memRead ag a s = .ok (s.mem.read a.toNat) := by simp [memRead, h]

theorem memRead_of_not_admits {s : State} {a : Addr} (h : admits s.plat a = false) (ag : Agent) :
    memRead ag a s = .error (.bufferNotAdmitted ag a) := by simp [memRead, h]

theorem memWrite_of_admits {s : State} {a : Addr} (h : admits s.plat a = true) (ag : Agent) (v : Byte) :
    memWrite ag a v s = .ok (s.setMem (s.mem.write a.toNat v)) := by simp [memWrite, h]

theorem memWrite_of_not_admits {s : State} {a : Addr} (h : admits s.plat a = false) (ag : Agent) (v : Byte) :
    memWrite ag a v s = .error (.bufferNotAdmitted ag a) := by simp [memWrite, h]

/-! ### Turns -/

@[simp] theorem takeTurn_enc (s : State) : (takeTurn s).enc = s.enc := rfl
@[simp] theorem takeTurn_dec (s : State) : (takeTurn s).dec = s.dec := rfl
@[simp] theorem takeTurn_cmdIllegal (s : State) : (takeTurn s).cmdIllegal = s.cmdIllegal := rfl
@[simp] theorem takeTurn_fault (s : State) : (takeTurn s).fault = s.fault := rfl
@[simp] theorem takeTurn_mem (s : State) : (takeTurn s).mem = s.mem := rfl
@[simp] theorem takeTurn_plat (s : State) : (takeTurn s).plat = s.plat := rfl
@[simp] theorem takeTurn_script (s : State) : (takeTurn s).script = s.script := rfl
@[simp] theorem takeTurn_reads (s : State) : (takeTurn s).reads = s.reads := rfl

theorem nextTurn_of_schedule {s : State} {t : Turn} {rest : List Turn} (h : s.schedule = t :: rest) : nextTurn s = t := by
  simp [nextTurn, h]

theorem takeTurn_of_schedule {s : State} {t : Turn} {rest : List Turn} (h : s.schedule = t :: rest) :
    takeTurn s = s.setSchedule rest := by
  simp [takeTurn, h, State.setSchedule, State.setFreeTurns]

/-! ### Faults, reads, reset -/

@[simp] theorem raiseFault_enc (r : Fault) (s : State) : (raiseFault r s).enc = s.enc := rfl
@[simp] theorem raiseFault_dec (r : Fault) (s : State) : (raiseFault r s).dec = s.dec := rfl
@[simp] theorem raiseFault_cmdIllegal (r : Fault) (s : State) : (raiseFault r s).cmdIllegal = s.cmdIllegal := rfl
@[simp] theorem raiseFault_fault (r : Fault) (s : State) : (raiseFault r s).fault = some r := rfl
@[simp] theorem raiseFault_mem (r : Fault) (s : State) : (raiseFault r s).mem = s.mem := rfl
@[simp] theorem raiseFault_plat (r : Fault) (s : State) : (raiseFault r s).plat = s.plat := rfl
@[simp] theorem raiseFault_script (r : Fault) (s : State) : (raiseFault r s).script = s.script := rfl
@[simp] theorem raiseFault_reads (r : Fault) (s : State) : (raiseFault r s).reads = s.reads := rfl
@[simp] theorem raiseFault_schedule (r : Fault) (s : State) : (raiseFault r s).schedule = s.schedule := rfl
@[simp] theorem raiseFault_freeTurns (r : Fault) (s : State) : (raiseFault r s).freeTurns = s.freeTurns := rfl

@[simp] theorem resetBlock_enc (s : State) : (resetBlock s).enc = EncRegs.zero := rfl
@[simp] theorem resetBlock_dec (s : State) : (resetBlock s).dec = DecRegs.zero := rfl
@[simp] theorem resetBlock_cmdIllegal (s : State) : (resetBlock s).cmdIllegal = false := rfl
@[simp] theorem resetBlock_fault (s : State) : (resetBlock s).fault = s.fault := rfl
@[simp] theorem resetBlock_mem (s : State) : (resetBlock s).mem = s.mem := rfl
@[simp] theorem resetBlock_plat (s : State) : (resetBlock s).plat = s.plat := rfl
@[simp] theorem resetBlock_script (s : State) : (resetBlock s).script = s.script := rfl
@[simp] theorem resetBlock_reads (s : State) : (resetBlock s).reads = s.reads := rfl

end Sys2Proof.Machine
end

