-- ==== Sys2Proof/Laws/Engines.lean ====
section
/-! SUPPORT. Everything a turn of ENC and a turn of DEC can do, said once (40_encoder.md R106; 41_decoder.md R146). -/

namespace Sys2Proof.Machine

theorem encEnabled_iff {s : State} : encEnabled s = true ↔ s.enc.busy = true ∧ s.fault = none := by
  simp [encEnabled]

theorem decEnabled_iff {s : State} : decEnabled s = true ↔ s.dec.busy = true ∧ s.fault = none := by
  simp [decEnabled]

/-! ### Each case of a turn, with what makes it the case -/

theorem encTurn_of_disabled {s : State} (h : encEnabled s = false) : encTurn s = s := by simp [encTurn, h]

theorem encTurn_of_full {s : State} (h : encEnabled s = true) (hc : s.enc.wptr = s.enc.cap) :
    encTurn s = s.setEnc (finishEnc true s.enc) := by simp [encTurn, encStep, h, hc]

theorem encTurn_of_not_admits {s : State} (h : encEnabled s = true) (hc : s.enc.wptr ≠ s.enc.cap)
    (ha : admits s.plat (encAddr s) = false) : encTurn s = raiseFault (.bufferNotAdmitted .enc (encAddr s)) s := by
  simp [encTurn, encStep, h, hc, memWrite_of_not_admits ha]

theorem encTurn_of_admits {s : State} (h : encEnabled s = true) (hc : s.enc.wptr ≠ s.enc.cap)
    (ha : admits s.plat (encAddr s) = true) :
    encTurn s =
      (s.setMem (s.mem.write (encAddr s).toNat (wireByte s.enc.rem))).setEnc (advanceEnc s.plat s.enc) := by
  simp [encTurn, encStep, h, hc, memWrite_of_admits ha]

theorem decTurn_of_disabled {s : State} (h : decEnabled s = false) : decTurn s = s := by simp [decTurn, h]

theorem decTurn_of_exhausted {s : State} (h : decEnabled s = true) (hc : s.dec.rptr = s.dec.len) :
    decTurn s = s.setDec (finishDec errEOF 0#64 s.dec) := by simp [decTurn, decStep, h, hc]

theorem decTurn_of_overflow {s : State} (h : decEnabled s = true) (hc : s.dec.rptr ≠ s.dec.len)
    (hs : 63 ≤ s.dec.shift.toNat) : decTurn s = s.setDec (finishDec errOVF 0#64 s.dec) := by
  simp [decTurn, decStep, h, hc, hs]

theorem decTurn_of_not_admits {s : State} (h : decEnabled s = true) (hc : s.dec.rptr ≠ s.dec.len)
    (hs : s.dec.shift.toNat < 63) (ha : admits s.plat (decAddr s) = false) :
    decTurn s = raiseFault (.bufferNotAdmitted .dec (decAddr s)) s := by
  simp [decTurn, decStep, h, hc, Nat.not_le.2 hs, memRead_of_not_admits ha]

theorem decTurn_of_admits {s : State} (h : decEnabled s = true) (hc : s.dec.rptr ≠ s.dec.len)
    (hs : s.dec.shift.toNat < 63) (ha : admits s.plat (decAddr s) = true) :
    decTurn s = s.setDec (advanceDec s.plat (s.mem.read (decAddr s).toNat) s.dec) := by
  simp [decTurn, decStep, h, hc, Nat.not_le.2 hs, memRead_of_admits ha]

/-! ### All cases of a turn -/

/-- A turn of ENC: no step, the capacity stop, the fault, or a byte written. -/
theorem encTurn_cases (s : State) :
    (encEnabled s = false ∧ encTurn s = s) ∨
    (encEnabled s = true ∧ s.enc.wptr = s.enc.cap ∧ encTurn s = s.setEnc (finishEnc true s.enc)) ∨
    (encEnabled s = true ∧ s.enc.wptr ≠ s.enc.cap ∧ admits s.plat (encAddr s) = false ∧
      encTurn s = raiseFault (.bufferNotAdmitted .enc (encAddr s)) s) ∨
    (encEnabled s = true ∧ s.enc.wptr ≠ s.enc.cap ∧ admits s.plat (encAddr s) = true ∧
      encTurn s =
        (s.setMem (s.mem.write (encAddr s).toNat (wireByte s.enc.rem))).setEnc (advanceEnc s.plat s.enc)) := by
  cases he : encEnabled s with
  | false => exact .inl ⟨rfl, encTurn_of_disabled he⟩
  | true =>
    by_cases hc : s.enc.wptr = s.enc.cap
    · exact .inr (.inl ⟨rfl, hc, encTurn_of_full he hc⟩)
    · cases ha : admits s.plat (encAddr s) with
      | false => exact .inr (.inr (.inl ⟨rfl, hc, rfl, encTurn_of_not_admits he hc ha⟩))
      | true => exact .inr (.inr (.inr ⟨rfl, hc, rfl, encTurn_of_admits he hc ha⟩))

/-- A turn of DEC: no step, the EOF stop, the OVF stop, the fault, or a byte read. -/
theorem decTurn_cases (s : State) :
    (decEnabled s = false ∧ decTurn s = s) ∨
    (decEnabled s = true ∧ s.dec.rptr = s.dec.len ∧ decTurn s = s.setDec (finishDec errEOF 0#64 s.dec)) ∨
    (decEnabled s = true ∧ s.dec.rptr ≠ s.dec.len ∧ 63 ≤ s.dec.shift.toNat ∧
      decTurn s = s.setDec (finishDec errOVF 0#64 s.dec)) ∨
    (decEnabled s = true ∧ s.dec.rptr ≠ s.dec.len ∧ s.dec.shift.toNat < 63 ∧ admits s.plat (decAddr s) = false ∧
      decTurn s = raiseFault (.bufferNotAdmitted .dec (decAddr s)) s) ∨
    (decEnabled s = true ∧ s.dec.rptr ≠ s.dec.len ∧ s.dec.shift.toNat < 63 ∧ admits s.plat (decAddr s) = true ∧
      decTurn s = s.setDec (advanceDec s.plat (s.mem.read (decAddr s).toNat) s.dec)) := by
  cases he : decEnabled s with
  | false => exact .inl ⟨rfl, decTurn_of_disabled he⟩
  | true =>
    by_cases hc : s.dec.rptr = s.dec.len
    · exact .inr (.inl ⟨rfl, hc, decTurn_of_exhausted he hc⟩)
    · rcases Nat.lt_or_ge s.dec.shift.toNat 63 with hs | hs
      · cases ha : admits s.plat (decAddr s) with
        | false => exact .inr (.inr (.inr (.inl ⟨rfl, hc, hs, rfl, decTurn_of_not_admits he hc hs ha⟩)))
        | true => exact .inr (.inr (.inr (.inr ⟨rfl, hc, hs, rfl, decTurn_of_admits he hc hs ha⟩)))
      · exact .inr (.inr (.inl ⟨rfl, hc, hs, decTurn_of_overflow he hc hs⟩))

/-- The two ways a written byte leaves the encoder (R104). -/
theorem advanceEnc_cases (p : Platform) (e : EncRegs) :
    (nextRem e.rem = 0#64 ∧
      advanceEnc p e =
        { e with wptr := truncTo p.lenW (e.wptr + 1#64), rem := 0#64, busy := false, done := true, trunc := false }) ∨
    (nextRem e.rem ≠ 0#64 ∧
      advanceEnc p e = { e with wptr := truncTo p.lenW (e.wptr + 1#64), rem := nextRem e.rem }) := by
  by_cases h : nextRem e.rem = 0#64 <;> simp [advanceEnc, finishEnc, h]

/-- The two ways a byte read leaves the decoder (R145). -/
theorem advanceDec_cases (p : Platform) (b : Byte) (d : DecRegs) :
    (wireMore b = false ∧
      advanceDec p b d =
        { d with acc := reassemble d.acc d.shift b, rptr := truncTo p.lenW (d.rptr + 1#64), busy := false, done := true,
                 err := errOK, result := reassemble d.acc d.shift b }) ∨
    (wireMore b = true ∧
      advanceDec p b d =
        { d with acc := reassemble d.acc d.shift b, rptr := truncTo p.lenW (d.rptr + 1#64), shift := d.shift + 7#6 }) := by
  cases h : wireMore b <;> simp [advanceDec, finishDec, h]

/-- What a turn of ENC leaves alone. -/
theorem encTurn_frame (s : State) :
    (encTurn s).dec = s.dec ∧ (encTurn s).cmdIllegal = s.cmdIllegal ∧ (encTurn s).plat = s.plat ∧
      (encTurn s).script = s.script ∧ (encTurn s).reads = s.reads ∧ (encTurn s).schedule = s.schedule ∧
      (encTurn s).freeTurns = s.freeTurns := by
  rcases encTurn_cases s with ⟨-, h⟩ | ⟨-, -, h⟩ | ⟨-, -, -, h⟩ | ⟨-, -, -, h⟩ <;> rw [h] <;> simp

/-- What a turn of DEC leaves alone: all but its own registers and FAULT. -/
theorem decTurn_frame (s : State) :
    (decTurn s).enc = s.enc ∧ (decTurn s).cmdIllegal = s.cmdIllegal ∧ (decTurn s).mem = s.mem ∧
      (decTurn s).plat = s.plat ∧ (decTurn s).script = s.script ∧ (decTurn s).reads = s.reads ∧
      (decTurn s).schedule = s.schedule ∧ (decTurn s).freeTurns = s.freeTurns := by
  rcases decTurn_cases s with ⟨-, h⟩ | ⟨-, -, h⟩ | ⟨-, -, -, h⟩ | ⟨-, -, -, -, h⟩ | ⟨-, -, -, -, h⟩ <;> rw [h] <;> simp

/-! ### A turn of an engine does not look at the host's side of the state -/

theorem encTurn_setSchedule (s : State) (l : List Turn) : encTurn (s.setSchedule l) = (encTurn s).setSchedule l := by
  rcases encTurn_cases s with ⟨h1, h⟩ | ⟨h1, h2, h⟩ | ⟨h1, h2, h3, h⟩ | ⟨h1, h2, h3, h⟩ <;> rw [h]
  · rw [encTurn_of_disabled (by exact h1)]
  · rw [encTurn_of_full (by exact h1) (by exact h2)]; rfl
  · rw [encTurn_of_not_admits (by exact h1) (by exact h2) (by exact h3)]; rfl
  · rw [encTurn_of_admits (by exact h1) (by exact h2) (by exact h3)]; rfl

theorem decTurn_setSchedule (s : State) (l : List Turn) : decTurn (s.setSchedule l) = (decTurn s).setSchedule l := by
  rcases decTurn_cases s with ⟨h1, h⟩ | ⟨h1, h2, h⟩ | ⟨h1, h2, h3, h⟩ | ⟨h1, h2, h3, h4, h⟩ | ⟨h1, h2, h3, h4, h⟩ <;> rw [h]
  · rw [decTurn_of_disabled (by exact h1)]
  · rw [decTurn_of_exhausted (by exact h1) (by exact h2)]; rfl
  · rw [decTurn_of_overflow (by exact h1) (by exact h2) (by exact h3)]; rfl
  · rw [decTurn_of_not_admits (by exact h1) (by exact h2) (by exact h3) (by exact h4)]; rfl
  · rw [decTurn_of_admits (by exact h1) (by exact h2) (by exact h3) (by exact h4)]; rfl

end Sys2Proof.Machine
end

