-- ==== Sys2Proof/Laws/Step.lean ====
section
/-! SUPPORT. Everything a host action, a host turn and a step can do, said once (42_host_commands.md). Later proofs cite the
inversion lemmas and do not unfold the step. -/

namespace Sys2Proof.Machine

/-! ### Commands -/

theorem exec_cases {i : Instr} {s t : State} (h : exec i s = .next t) :
    (i = .nop ∧ t = s.setCmdIllegal false) ∨
    (i = .enc ∧ s.enc.busy = true ∧ t = s) ∨
    (i = .enc ∧ s.enc.busy = false ∧ t = (s.setEnc (startEnc s.enc)).setCmdIllegal false) ∨
    (i = .dec ∧ s.dec.busy = true ∧ t = s) ∨
    (i = .dec ∧ s.dec.busy = false ∧ t = (s.setDec (startDec s.dec)).setCmdIllegal false) := by
  cases i with
  | nop => simp only [exec, execNop, Host.Outcome.next.injEq] at h; simp [h]
  | enc =>
    simp only [exec, execEnc] at h
    split at h <;> simp_all
  | dec =>
    simp only [exec, execDec] at h
    split at h <;> simp_all

theorem exec_answers_next (i : Instr) (s : State) : ∃ t, exec i s = .next t := by
  cases i with
  | nop => exact ⟨_, rfl⟩
  | enc => by_cases h : s.enc.busy = true <;> simp [exec, execEnc, h]
  | dec => by_cases h : s.dec.busy = true <;> simp [exec, execDec, h]

/-! ### Host actions -/

/-- What a register write that is accepted does, in full. -/
theorem hostWrite_cases {r : HReg} {d : Word} {s t : State} (h : hostWrite r d s = .next t) :
    (r = .cmd ∧ ∃ i, decode d = .ok i ∧ exec i s = .next t) ∨
    (r = .cmd ∧ (∃ e, decode d = .error e) ∧ t = illegalCommand s) ∨
    (r ≠ .cmd ∧ t = writeReg r d s) := by
  cases r with
  | cmd =>
    simp only [hostWrite, commandWord] at h
    split at h
    · exact .inl ⟨rfl, _, ‹_›, h⟩
    · simp only [Host.Outcome.next.injEq] at h
      exact .inr (.inl ⟨rfl, ⟨_, ‹_›⟩, h.symm⟩)
  | _ => simp only [hostWrite, Host.Outcome.next.injEq] at h; exact .inr (.inr ⟨by simp, h.symm⟩)

theorem hostWrite_answers_next (r : HReg) (d : Word) (s : State) : ∃ t, hostWrite r d s = .next t := by
  cases r with
  | cmd =>
    simp only [hostWrite, commandWord]
    split
    · exact exec_answers_next _ _
    · exact ⟨_, rfl⟩
  | _ => exact ⟨_, rfl⟩

theorem hostMemWrite_cases (a : Addr) (v : Byte) (s : State) :
    (admits s.plat a = true ∧ hostMemWrite a v s = s.setMem (s.mem.write a.toNat v)) ∨
    (admits s.plat a = false ∧ hostMemWrite a v s = raiseFault (.bufferNotAdmitted .host a) s) := by
  cases h : admits s.plat a with
  | true => simp [hostMemWrite, memWrite_of_admits h]
  | false => simp [hostMemWrite, memWrite_of_not_admits h]

theorem hostMemRead_cases (a : Addr) (s : State) :
    (admits s.plat a = true ∧ hostMemRead a s = s.setReads (.mem a (s.mem.read a.toNat) :: s.reads)) ∨
    (admits s.plat a = false ∧ hostMemRead a s = raiseFault (.bufferNotAdmitted .host a) s) := by
  cases h : admits s.plat a with
  | true => simp [hostMemRead, pushRead, memRead_of_admits h]
  | false => simp [hostMemRead, memRead_of_not_admits h]

theorem hostPoll_cases (m v : Word) (s : State) :
    (statusWord s &&& m = v ∧ hostPoll m v s = hostRead .status s) ∨
    (statusWord s &&& m ≠ v ∧ hostPoll m v s = (hostRead .status s).setScript (.wait m v :: s.script)) := by
  by_cases h : statusWord s &&& m = v <;> simp [hostPoll, h]

theorem hostAct_answers_next (a : HostAction) (s : State) : ∃ t, hostAct a s = .next t := by
  cases a with
  | wr r d => exact hostWrite_answers_next r d s
  | _ => exact ⟨_, rfl⟩

/-- What a turn of the host can do. -/
theorem hostTurn_cases {s t : State} (h : hostTurn s = .next t) :
    (s.script = [] ∧ t = s) ∨
    (∃ a rest, s.script = a :: rest ∧ held a s = true ∧ t = s) ∨
    (∃ a rest, s.script = a :: rest ∧ held a s = false ∧ hostAct a (s.setScript rest) = .next t) := by
  unfold hostTurn at h
  split at h
  · simp only [Host.Outcome.next.injEq] at h
    exact .inl ⟨‹_›, h.symm⟩
  · rename_i a rest hs
    split at h
    · simp only [Host.Outcome.next.injEq] at h
      exact .inr (.inl ⟨a, rest, hs, ‹_›, h.symm⟩)
    · rename_i hh
      exact .inr (.inr ⟨a, rest, hs, by simpa using hh, h⟩)

theorem hostTurn_answers_next (s : State) : ∃ t, hostTurn s = .next t := by
  unfold hostTurn
  split
  · exact ⟨_, rfl⟩
  · split
    · exact ⟨_, rfl⟩
    · exact hostAct_answers_next _ _

theorem hostTurn_of_held {s : State} {a : HostAction} {rest : List HostAction} (hs : s.script = a :: rest)
    (h : held a s = true) : hostTurn s = .next s := by simp [hostTurn, hs, h]

theorem hostTurn_of_not_held {s : State} {a : HostAction} {rest : List HostAction} (hs : s.script = a :: rest)
    (h : held a s = false) : hostTurn s = hostAct a (s.setScript rest) := by simp [hostTurn, hs, h]

/-- A hold depends on the engines only. -/
@[simp] theorem held_takeTurn (a : HostAction) (s : State) : held a (takeTurn s) = held a s := by
  cases a with
  | wr r d =>
    cases r with
    | cmd =>
      simp only [held, writeHeld]
      cases decode d with
      | error e => rfl
      | ok i => cases i <;> simp [commandHeld]
    | _ => simp [held, writeHeld]
  | _ => rfl

/-! ### Steps -/

theorem step_of_host {s : State} (h : nextTurn s = .agent .host) : step s = hostTurn (takeTurn s) := by simp [step, h]
theorem step_of_enc {s : State} (h : nextTurn s = .agent .enc) : step s = .next (encTurn (takeTurn s)) := by simp [step, h]
theorem step_of_dec {s : State} (h : nextTurn s = .agent .dec) : step s = .next (decTurn (takeTurn s)) := by simp [step, h]
theorem step_of_reset {s : State} (h : nextTurn s = .reset) : step s = .next (resetBlock (takeTurn s)) := by simp [step, h]

/-- The host's next action, held: the turn passes. -/
theorem step_of_held {s : State} {a : HostAction} {rest : List HostAction} (h : HostNext s a rest)
    (hh : held a s = true) : step s = .next (takeTurn s) := by
  rw [step_of_host h.1, hostTurn_of_held (by simpa using h.2) (by simpa using hh)]

/-- The host's next action, not held: it is taken. -/
theorem step_of_not_held {s : State} {a : HostAction} {rest : List HostAction} (h : HostNext s a rest)
    (hh : held a s = false) : step s = hostAct a ((takeTurn s).setScript rest) := by
  rw [step_of_host h.1, hostTurn_of_not_held (by simpa using h.2) (by simpa using hh)]

/-- What a step can do: a turn of one agent, or a reset. -/
theorem step_cases {s t : State} (h : step s = .next t) :
    (nextTurn s = .agent .host ∧ hostTurn (takeTurn s) = .next t) ∨
    (nextTurn s = .agent .enc ∧ t = encTurn (takeTurn s)) ∨
    (nextTurn s = .agent .dec ∧ t = decTurn (takeTurn s)) ∨
    (nextTurn s = .reset ∧ t = resetBlock (takeTurn s)) := by
  unfold step at h
  split at h
  · exact .inl ⟨‹_›, h⟩
  · simp only [Host.Outcome.next.injEq] at h; exact .inr (.inl ⟨‹_›, h.symm⟩)
  · simp only [Host.Outcome.next.injEq] at h; exact .inr (.inr (.inl ⟨‹_›, h.symm⟩))
  · simp only [Host.Outcome.next.injEq] at h; exact .inr (.inr (.inr ⟨‹_›, h.symm⟩))

/-- What a step can do, with a host turn taken apart: nothing more to do, a held write, or an action taken. -/
theorem step_cases_full {s t : State} (h : step s = .next t) :
    (nextTurn s = .agent .host ∧ s.script = [] ∧ t = takeTurn s) ∨
    (∃ a rest, HostNext s a rest ∧ held a s = true ∧ t = takeTurn s) ∨
    (∃ a rest, HostNext s a rest ∧ held a s = false ∧ hostAct a ((takeTurn s).setScript rest) = .next t) ∨
    (nextTurn s = .agent .enc ∧ t = encTurn (takeTurn s)) ∨
    (nextTurn s = .agent .dec ∧ t = decTurn (takeTurn s)) ∨
    (nextTurn s = .reset ∧ t = resetBlock (takeTurn s)) := by
  rcases step_cases h with ⟨ht, hh⟩ | h | h | h
  · rcases hostTurn_cases hh with ⟨hs, rfl⟩ | ⟨a, rest, hs, hd, rfl⟩ | ⟨a, rest, hs, hd, hn⟩
    · exact .inl ⟨ht, by simpa using hs, rfl⟩
    · exact .inr (.inl ⟨a, rest, ⟨ht, by simpa using hs⟩, by simpa using hd, rfl⟩)
    · exact .inr (.inr (.inl ⟨a, rest, ⟨ht, by simpa using hs⟩, by simpa using hd, hn⟩))
  · exact .inr (.inr (.inr (.inl h)))
  · exact .inr (.inr (.inr (.inr (.inl h))))
  · exact .inr (.inr (.inr (.inr (.inr h))))

theorem run_succ_of_next {s t : State} (h : step s = .next t) (n : Nat) : run (n + 1) s = run n t := by
  simp [run, h]

/-- A run in two parts. -/
theorem run_add {m n : Nat} {s t : State} (h : run m s = .next t) : run (m + n) s = run n t := by
  induction m generalizing s with
  | zero => simp only [run, Host.Outcome.next.injEq] at h; simp [h]
  | succ m ih =>
    have e : m + 1 + n = (m + n) + 1 := by omega
    cases hs : step s with
    | next u =>
      rw [run_succ_of_next hs] at h
      rw [e, run_succ_of_next hs, ih h]
    | fault r => simp [run, hs] at h
    | refused r => simp [run, hs] at h

theorem core_run_of_next (M : Host.Core) (k : Nat) (s t : M.State) (h : M.step s = .next t) :
    M.run (k + 1) s = M.run k t := by rw [Host.Core.run, h]

theorem core_run_of_fault (M : Host.Core) (k : Nat) (s : M.State) (r : M.Fault) (h : M.step s = .fault r) :
    M.run (k + 1) s = .fault r := by rw [Host.Core.run, h]

theorem core_run_of_refused (M : Host.Core) (k : Nat) (s : M.State) (r : M.Refusal) (h : M.step s = .refused r) :
    M.run (k + 1) s = .refused r := by rw [Host.Core.run, h]

/-- `run` is the host's run of the machine. -/
theorem run_eq_core_run (n : Nat) (s : State) : run n s = Host.Core.run Sys2Proof.core n s := by
  induction n generalizing s with
  | zero => rfl
  | succ n ih =>
    cases h : step s with
    | next t => rw [core_run_of_next Sys2Proof.core n s t h, ← ih]; simp [run, h]
    | fault r => rw [core_run_of_fault Sys2Proof.core n s r h]; simp [run, h]; rfl
    | refused r => rw [core_run_of_refused Sys2Proof.core n s r h]; simp [run, h]; rfl

end Sys2Proof.Machine
end

