-- ==== Sys2Proof/Laws/Host.lean ====
section
/-! SUPPORT. What the host's accesses leave alone, and everything a host action that is not held can do, in one lemma
(42_host_commands.md R180 to R190). -/

namespace Sys2Proof.Machine

/-! ### Command words -/

theorem decode_ok_iff_word (d : Word) : (∃ i, decode d = .ok i) ↔ d = 0#64 ∨ d = 1#64 ∨ d = 2#64 := by
  constructor
  · rintro ⟨i, hi⟩
    have h := eq_encode_of_decode hi
    cases i
    · exact .inl (h.trans rfl)
    · exact .inr (.inl (h.trans rfl))
    · exact .inr (.inr (h.trans rfl))
  · rintro (rfl | rfl | rfl) <;> exact ⟨_, rfl⟩

theorem decode_error_of_not_ok {d : Word} (h : ¬ ∃ i, decode d = .ok i) : ∃ e, decode d = .error e := by
  cases hd : decode d with
  | ok i => exact absurd ⟨i, hd⟩ h
  | error e => exact ⟨e, rfl⟩

/-- R181, write by write. -/
theorem held_wr_iff (r : HReg) (d : Word) (s : State) :
    held (.wr r d) s = true ↔
      (s.enc.busy = true ∧ (r = .encValue ∨ r = .encBase ∨ r = .encCap ∨ (r = .cmd ∧ d = 1#64))) ∨
      (s.dec.busy = true ∧ (r = .decBase ∨ r = .decLen ∨ (r = .cmd ∧ d = 2#64))) := by
  cases r with
  | cmd =>
    simp only [held, writeHeld]
    by_cases h : ∃ i, decode d = .ok i
    · rcases (decode_ok_iff_word d).1 h with rfl | rfl | rfl
      · rw [show decode 0#64 = .ok .nop from rfl]; simp [commandHeld]
      · rw [show decode 1#64 = .ok .enc from rfl]; simp [commandHeld]
      · rw [show decode 2#64 = .ok .dec from rfl]; simp [commandHeld]
    · obtain ⟨e, he⟩ := decode_error_of_not_ok h
      rw [decode_ok_iff_word] at h
      simp [he]
      tauto
  | _ => simp [held, writeHeld]

/-! ### What reads show depends on the block's registers only -/

theorem statusWord_congr {s t : State} (h1 : t.enc = s.enc) (h2 : t.dec = s.dec) (h3 : t.cmdIllegal = s.cmdIllegal) :
    statusWord t = statusWord s := by simp [statusWord, h1, h2, h3]

theorem hreg_congr {s t : State} (h1 : t.enc = s.enc) (h2 : t.dec = s.dec) (h3 : t.cmdIllegal = s.cmdIllegal)
    (r : HReg) : hreg r t = hreg r s := by cases r <;> simp [hreg, statusWord, h1, h2, h3]

theorem statusWord_lt (s : State) : (statusWord s).toNat < 2 ^ 9 := by
  simp only [statusWord, bitWord]
  generalize s.enc.busy = a
  generalize s.enc.done = b
  generalize s.enc.trunc = c
  generalize s.dec.busy = d
  generalize s.dec.done = e
  generalize s.dec.err = f
  generalize s.cmdIllegal = g
  revert a b c d e f g
  decide

/-! ### Frames -/

section
variable (r : HReg) (d : Word) (s : State)
@[simp] theorem writeReg_cmdIllegal : (writeReg r d s).cmdIllegal = s.cmdIllegal := by cases r <;> rfl
@[simp] theorem writeReg_fault : (writeReg r d s).fault = s.fault := by cases r <;> rfl
@[simp] theorem writeReg_mem : (writeReg r d s).mem = s.mem := by cases r <;> rfl
@[simp] theorem writeReg_plat : (writeReg r d s).plat = s.plat := by cases r <;> rfl
@[simp] theorem writeReg_script : (writeReg r d s).script = s.script := by cases r <;> rfl
@[simp] theorem writeReg_reads : (writeReg r d s).reads = s.reads := by cases r <;> rfl
@[simp] theorem writeReg_schedule : (writeReg r d s).schedule = s.schedule := by cases r <;> rfl
@[simp] theorem writeReg_enc_busy : (writeReg r d s).enc.busy = s.enc.busy := by cases r <;> rfl
@[simp] theorem writeReg_dec_busy : (writeReg r d s).dec.busy = s.dec.busy := by cases r <;> rfl
end

section
variable (r : HReg) (s : State)
@[simp] theorem hostRead_enc : (hostRead r s).enc = s.enc := rfl
@[simp] theorem hostRead_dec : (hostRead r s).dec = s.dec := rfl
@[simp] theorem hostRead_cmdIllegal : (hostRead r s).cmdIllegal = s.cmdIllegal := rfl
@[simp] theorem hostRead_fault : (hostRead r s).fault = s.fault := rfl
@[simp] theorem hostRead_mem : (hostRead r s).mem = s.mem := rfl
@[simp] theorem hostRead_plat : (hostRead r s).plat = s.plat := rfl
@[simp] theorem hostRead_script : (hostRead r s).script = s.script := rfl
@[simp] theorem hostRead_schedule : (hostRead r s).schedule = s.schedule := rfl
end

/-- A command changes only its engine's registers and CMD_ILLEGAL. -/
theorem exec_frame {i : Instr} {s t : State} (h : exec i s = .next t) :
    t.fault = s.fault ∧ t.mem = s.mem ∧ t.plat = s.plat ∧ t.script = s.script ∧ t.reads = s.reads ∧
      t.schedule = s.schedule ∧ t.freeTurns = s.freeTurns ∧ (i ≠ .enc → t.enc = s.enc) ∧ (i ≠ .dec → t.dec = s.dec) := by
  rcases exec_cases h with ⟨rfl, rfl⟩ | ⟨rfl, -, rfl⟩ | ⟨rfl, -, rfl⟩ | ⟨rfl, -, rfl⟩ | ⟨rfl, -, rfl⟩ <;> simp

/-- Everything a host action can do once it is taken. -/
theorem hostAct_cases {a : HostAction} {s t : State} (h : hostAct a s = .next t) :
    (∃ d i, a = .wr .cmd d ∧ decode d = .ok i ∧ exec i s = .next t) ∨
    (∃ d e, a = .wr .cmd d ∧ decode d = .error e ∧ t = s.setCmdIllegal true) ∨
    (∃ r d, a = .wr r d ∧ r ≠ .cmd ∧ t = writeReg r d s) ∨
    (∃ r, a = .rd r ∧ t = hostRead r s) ∨
    (∃ b v, a = .mw b v ∧ admits s.plat b = true ∧ t = s.setMem (s.mem.write b.toNat v)) ∨
    (∃ b v, a = .mw b v ∧ admits s.plat b = false ∧ t = raiseFault (.bufferNotAdmitted .host b) s) ∨
    (∃ b, a = .mr b ∧ admits s.plat b = true ∧ t = s.setReads (.mem b (s.mem.read b.toNat) :: s.reads)) ∨
    (∃ b, a = .mr b ∧ admits s.plat b = false ∧ t = raiseFault (.bufferNotAdmitted .host b) s) ∨
    (∃ m v, a = .wait m v ∧ statusWord s &&& m = v ∧ t = hostRead .status s) ∨
    (∃ m v, a = .wait m v ∧ statusWord s &&& m ≠ v ∧ t = (hostRead .status s).setScript (.wait m v :: s.script)) := by
  cases a with
  | wr r d =>
    rcases hostWrite_cases h with ⟨rfl, i, hi, hx⟩ | ⟨rfl, ⟨e, he⟩, rfl⟩ | ⟨hr, rfl⟩
    · exact .inl ⟨d, i, rfl, hi, hx⟩
    · exact .inr (.inl ⟨d, e, rfl, he, rfl⟩)
    · exact .inr (.inr (.inl ⟨r, d, rfl, hr, rfl⟩))
  | rd r => simp only [hostAct, Host.Outcome.next.injEq] at h; simp [h]
  | mw b v =>
    simp only [hostAct, Host.Outcome.next.injEq] at h
    rcases hostMemWrite_cases b v s with ⟨hb, e⟩ | ⟨hb, e⟩ <;> simp [← h, e, hb]
  | mr b =>
    simp only [hostAct, Host.Outcome.next.injEq] at h
    rcases hostMemRead_cases b s with ⟨hb, e⟩ | ⟨hb, e⟩ <;> simp [← h, e, hb]
  | wait m v =>
    simp only [hostAct, Host.Outcome.next.injEq] at h
    rcases hostPoll_cases m v s with ⟨hb, e⟩ | ⟨hb, e⟩ <;> simp [← h, e, hb]

/-! ### A turn taken changes nothing an engine looks at -/

@[simp] theorem encAddr_takeTurn (s : State) : encAddr (takeTurn s) = encAddr s := by simp [encAddr]
@[simp] theorem decAddr_takeTurn (s : State) : decAddr (takeTurn s) = decAddr s := by simp [decAddr]
@[simp] theorem encEnabled_takeTurn (s : State) : encEnabled (takeTurn s) = encEnabled s := by simp [encEnabled]
@[simp] theorem decEnabled_takeTurn (s : State) : decEnabled (takeTurn s) = decEnabled s := by simp [decEnabled]

end Sys2Proof.Machine
end

