-- ==== Sys2Proof/Laws/PerInstr.lean ====
section
/-! SUPPORT. Statements about every command of the opcode table, one lemma per command (30_encoding.md R75 to R77). -/

namespace Sys2Proof.Laws.EncodesItsRow

/-- A command is well formed, its word lies in its own row of the opcode table, and the decoder reads it back. -/
def Statement (i : Instr) : Prop :=
  i.wf = true ∧ (∃ row ∈ opcodeTable, row.instr = i ∧ encode i &&& row.mask = row.pattern) ∧ decode (encode i) = .ok i

theorem nop : Statement .nop := by refine ⟨rfl, ⟨_, List.mem_cons_self, rfl, rfl⟩, rfl⟩
theorem enc : Statement .enc := by
  refine ⟨rfl, ⟨_, List.mem_cons_of_mem _ List.mem_cons_self, rfl, rfl⟩, rfl⟩
theorem dec : Statement .dec := by
  refine ⟨rfl, ⟨_, List.mem_cons_of_mem _ (List.mem_cons_of_mem _ List.mem_cons_self), rfl, rfl⟩, rfl⟩

end Sys2Proof.Laws.EncodesItsRow
end

