-- ==== Sys2Proof/Laws/Wire.lean ====
section
/-! SUPPORT. The wire format: lengths, bytes and sums of chunks (30_encoding.md R70 to R74). -/

namespace Sys2Proof.Machine

/-- v < 2^m says that bitlen(v) is at most m (R9). -/
theorem bitlen_le_iff (v : Word) (m : Nat) : bitlen v ≤ m ↔ v.toNat < 2 ^ m := by
  unfold bitlen
  split
  case isTrue h => subst h; simp
  case isFalse h =>
    have hv : v.toNat ≠ 0 := fun e => h (BitVec.eq_of_toNat_eq (by simpa using e))
    rw [← Nat.log2_lt hv]
    omega

theorem bitlen_le (v : Word) : bitlen v ≤ 64 := (bitlen_le_iff v 64).2 v.isLt

theorem one_le_encLen (v : Word) : 1 ≤ encLen v := le_max_left _ _

theorem encLen_le_ten (v : Word) : encLen v ≤ 10 := by
  have := bitlen_le v
  unfold encLen
  omega

/-- v fits in j chunks iff v < 2^(7j) (the table of R72). -/
theorem encLen_le_iff (v : Word) {j : Nat} (hj : 1 ≤ j) : encLen v ≤ j ↔ v.toNat < 2 ^ (7 * j) := by
  rw [← bitlen_le_iff]
  unfold encLen
  omega

theorem lt_encLen_iff (v : Word) {j : Nat} (hj : 1 ≤ j) : j < encLen v ↔ 2 ^ (7 * j) ≤ v.toNat := by
  have := encLen_le_iff v hj
  omega

/-- After j chunks, something of v remains iff v has more than j bytes. -/
theorem shift_eq_zero_iff (v : Word) {j : Nat} (hj : 1 ≤ j) : v >>> (7 * j) = 0#64 ↔ encLen v ≤ j := by
  rw [encLen_le_iff v hj, ← BitVec.toNat_inj]
  simp only [BitVec.toNat_ushiftRight, BitVec.toNat_ofNat, Nat.zero_mod, Nat.shiftRight_eq_div_pow]
  rw [Nat.div_eq_zero_iff]
  have : (2 : Nat) ^ (7 * j) ≠ 0 := by positivity
  omega

theorem wireChunk_toNat (b : Byte) : (wireChunk b).toNat = b.toNat % 2 ^ 7 := by
  simp only [wireChunk, BitVec.toNat_setWidth, BitVec.extractLsb'_toNat, Nat.shiftRight_zero]
  omega

theorem wireChunk_lt (b : Byte) : (wireChunk b).toNat < 2 ^ 7 := by
  rw [wireChunk_toNat]
  omega

theorem bit7_setWidth (x : BitVec 7) : (x.setWidth 8).getLsbD 7 = false := by simp

/-- C of byte k of enc(v) is 1 on every byte but the last (R72). -/
theorem wireMore_encByte (v : Word) (k : Nat) : wireMore (encByte v k) = decide (k + 1 < encLen v) := by
  unfold wireMore encByte
  rw [BitVec.getLsbD_or, bit7_setWidth]
  split
  · simp [*]
  · simp [*]

/-- D of byte k of enc(v) is bits 7k+6 .. 7k of v (R72). -/
theorem encByte_chunk (v : Word) (k : Nat) : (encByte v k).extractLsb' 0 7 = (v >>> (7 * k)).extractLsb' 0 7 := by
  unfold encByte
  apply BitVec.eq_of_getLsbD_eq
  intro i hi
  have hbit : ∀ c : Bool, (if c = true then (0x80#8) else 0x00#8).getLsbD i = false := fun c => by
    have : ∀ j, j < 7 → (0x80#8).getLsbD j = false := by decide
    cases c <;> simp [this i hi]
  have hb := hbit (decide (k + 1 < encLen v))
  simp only [decide_eq_true_eq] at hb
  rw [BitVec.getLsbD_extractLsb', Nat.zero_add, BitVec.getLsbD_or, hb]
  simp [hi]
  omega

theorem wireChunk_encByte (v : Word) (k : Nat) :
    wireChunk (encByte v k) = ((v >>> (7 * k)).extractLsb' 0 7).setWidth 64 := by
  rw [wireChunk, encByte_chunk]

theorem wireChunk_encByte_toNat (v : Word) (k : Nat) :
    (wireChunk (encByte v k)).toNat = v.toNat / 2 ^ (7 * k) % 2 ^ 7 := by
  rw [wireChunk_encByte]
  simp only [BitVec.toNat_setWidth, BitVec.extractLsb'_toNat, BitVec.toNat_ushiftRight,
    Nat.shiftRight_eq_div_pow]
  omega

/-- A chunk at shift 7n lands above everything below 2^(7n), and within 64 bits for n at most 8 (R144). -/
theorem add_chunk_toNat {acc : Word} {b : Byte} {n : Nat} (hn : n ≤ 8) (hacc : acc.toNat < 2 ^ (7 * n)) :
    (acc + wireChunk b <<< (7 * n)).toNat = acc.toNat + (wireChunk b).toNat * 2 ^ (7 * n) ∧
      (acc + wireChunk b <<< (7 * n)).toNat < 2 ^ (7 * (n + 1)) := by
  have hc := wireChunk_lt b
  have hp : (2 : Nat) ^ (7 * (n + 1)) = 2 ^ 7 * 2 ^ (7 * n) := by rw [← pow_add]; ring_nf
  have h63 : (2 : Nat) ^ (7 * (n + 1)) ≤ 2 ^ 63 := Nat.pow_le_pow_right (by omega) (by omega)
  have hm : (wireChunk b).toNat * 2 ^ (7 * n) ≤ (2 ^ 7 - 1) * 2 ^ (7 * n) := Nat.mul_le_mul_right _ (by omega)
  have hsub : (2 ^ 7 - 1) * 2 ^ (7 * n) + 2 ^ (7 * n) = 2 ^ (7 * (n + 1)) := by rw [hp]; ring
  have hs : (wireChunk b <<< (7 * n)).toNat = (wireChunk b).toNat * 2 ^ (7 * n) := by
    rw [BitVec.toNat_shiftLeft, Nat.shiftLeft_eq]
    exact Nat.mod_eq_of_lt (by omega)
  have ht : (acc + wireChunk b <<< (7 * n)).toNat = acc.toNat + (wireChunk b).toNat * 2 ^ (7 * n) := by
    rw [BitVec.toNat_add, hs]
    exact Nat.mod_eq_of_lt (by omega)
  exact ⟨ht, by rw [ht]; omega⟩

theorem chunkSum_lt (b : Nat → Byte) {n : Nat} (hn : n ≤ 9) : (chunkSum b n).toNat < 2 ^ (7 * n) := by
  induction n with
  | zero => simp [chunkSum]
  | succ n ih => exact (add_chunk_toNat (by omega) (ih (by omega))).2

theorem chunkSum_congr {b c : Nat → Byte} {n : Nat} (h : ∀ k, k < n → b k = c k) : chunkSum b n = chunkSum c n := by
  induction n with
  | zero => rfl
  | succ n ih => simp [chunkSum, h n (by omega), ih (fun k hk => h k (by omega))]

/-- The first n chunks of enc(v), n at most 9, add up to v mod 2^(7n). -/
theorem chunkSum_encByte (v : Word) {n : Nat} (hn : n ≤ 9) :
    (chunkSum (encByte v) n).toNat = v.toNat % 2 ^ (7 * n) := by
  induction n with
  | zero => simp [chunkSum, Nat.mod_one]
  | succ n ih =>
    have hlt := chunkSum_lt (encByte v) (n := n) (by omega)
    rw [chunkSum, (add_chunk_toNat (by omega) hlt).1, ih (by omega), wireChunk_encByte_toNat]
    have : 7 * (n + 1) = 7 * n + 7 := by ring
    rw [this, Nat.pow_add, Nat.mod_mul]
    ring

/-! ### The first terminator of a byte sequence -/

theorem firstTerminator_eq_none {b : Nat → Byte} {n : Nat} :
    firstTerminator b n = none ↔ ∀ k, k < n → wireMore (b k) = true := by
  simp [firstTerminator]

theorem firstTerminator_eq_some {b : Nat → Byte} {n k : Nat} :
    firstTerminator b n = some k ↔ k < n ∧ wireMore (b k) = false ∧ ∀ j, j < k → wireMore (b j) = true := by
  unfold firstTerminator
  rw [List.find?_range_eq_some]
  simp [and_left_comm]

end Sys2Proof.Machine
end

