-- ==== Sys2Proof/Laws/Runs.lean ====
section
/-! SUPPORT. Single steps of a run as equations, and what a step of another agent leaves of a buffer (70_reset_and_hazards.md
R242, R245). -/

namespace Sys2Proof.Machine

/-! ### Steps whose case is known -/

theorem host_command_step {s : State} {d : Word} {i : Instr} {rest : List HostAction} (h : HostNext s (.wr .cmd d) rest)
    (hd : decode d = .ok i) (hh : held (.wr .cmd d) s = false) : step s = exec i ((takeTurn s).setScript rest) := by
  rw [step_of_not_held h hh]
  simp [hostAct, hostWrite, commandWord, hd]

theorem held_enc_command (s : State) : held (.wr .cmd 1#64) s = s.enc.busy := by
  simp [held, writeHeld, show decode 1#64 = .ok .enc from rfl, commandHeld]

theorem held_dec_command (s : State) : held (.wr .cmd 2#64) s = s.dec.busy := by
  simp [held, writeHeld, show decode 2#64 = .ok .dec from rfl, commandHeld]

theorem host_write_step {s : State} {a : Addr} {v : Byte} {rest : List HostAction} (h : HostNext s (.mw a v) rest)
    (ha : admits s.plat a = true) :
    step s = .next (((takeTurn s).setScript rest).setMem (s.mem.write a.toNat v)) := by
  rw [step_of_not_held h rfl]
  simp [hostAct, hostMemWrite, memWrite_of_admits (s := (takeTurn s).setScript rest) (by exact ha)]

theorem enc_write_step {s : State} (h : nextTurn s = .agent .enc) (he : encEnabled s = true) (hc : s.enc.wptr ≠ s.enc.cap)
    (ha : admits s.plat (encAddr s) = true) :
    step s = .next
      (((takeTurn s).setMem (s.mem.write (encAddr s).toNat (wireByte s.enc.rem))).setEnc (advanceEnc s.plat s.enc)) := by
  rw [step_of_enc h, encTurn_of_admits (by simpa using he) (by simpa using hc) (by simpa using ha)]
  simp

theorem run_two {s u t : State} (h1 : step s = .next u) (h2 : step u = .next t) : run 2 s = .next t := by
  rw [run_succ_of_next h1, run_succ_of_next h2]
  rfl

/-! ### Buffers -/

/-- What a step that is not a turn of ENC can do to BUFMEM: nothing, or one MW. -/
theorem mem_cases_of_not_enc_turn {s t : State} (h : step s = .next t) (h1 : nextTurn s ≠ .agent .enc) :
    t.mem = s.mem ∨ ∃ a v rest, HostNext s (.mw a v) rest ∧ t.mem = s.mem.write a.toNat v := by
  rcases step_cases_full h with ⟨-, -, rfl⟩ | ⟨a, rest, -, -, rfl⟩ | ⟨a, rest, hn, -, hx⟩ | ⟨ht, -⟩ | ⟨-, rfl⟩ | ⟨-, rfl⟩
  · exact .inl rfl
  · exact .inl rfl
  · rcases hostAct_cases hx with ⟨d, i, rfl, -, hx⟩ | ⟨d, e, rfl, -, rfl⟩ | ⟨r, d, rfl, -, rfl⟩ | ⟨r, rfl, rfl⟩ |
      ⟨b, v, rfl, -, rfl⟩ | ⟨b, v, -, -, rfl⟩ | ⟨b, -, -, rfl⟩ | ⟨b, -, -, rfl⟩ | ⟨m, v, -, -, rfl⟩ | ⟨m, v, -, -, rfl⟩
    · exact .inl (exec_frame hx).2.1
    · exact .inl rfl
    · exact .inl (writeReg_mem ..)
    · exact .inl rfl
    · exact .inr ⟨b, v, rest, hn, rfl⟩
    all_goals exact .inl rfl
  · exact absurd ht h1
  · exact .inl (decTurn_frame _).2.2.1
  · exact .inl rfl

theorem ne_of_not_inEncSpan {s : State} {a : Addr} {k : Nat} (h : inEncSpan s a = false) (hk : k < min s.enc.cap.toNat 10) :
    (effAddr s.plat s.enc.base (BitVec.ofNat 64 k)).toNat ≠ a.toNat := by
  simp only [inEncSpan, List.any_eq_false, List.mem_range] at h
  have := h k hk
  exact fun e => this (by simpa using BitVec.eq_of_toNat_eq e)

theorem ne_of_not_inDecSpan {s : State} {a : Addr} {k : Nat} (h : inDecSpan s a = false) (hk : k < min s.dec.len.toNat 9) :
    (effAddr s.plat s.dec.base (BitVec.ofNat 64 k)).toNat ≠ a.toNat := by
  simp only [inDecSpan, List.any_eq_false, List.mem_range] at h
  have := h k hk
  exact fun e => this (by simpa using BitVec.eq_of_toNat_eq e)

theorem lastAtItsAddress_of_distinct {p : Platform} (hp : p.addrW ≤ 64) {base : Addr} {n k : Nat}
    (hd : OffsetsDistinct p n) (hk : k < n) : LastAtItsAddress p base n k :=
  fun j h1 h2 hx => effAddr_inj hp base hd h2 hk (by omega) (congrArg BitVec.toNat hx)

/-! ### The byte ENC writes -/

theorem nextRem_of_shift {e : EncRegs} (h : e.rem = e.value >>> (7 * e.wptr.toNat)) :
    nextRem e.rem = e.value >>> (7 * (e.wptr.toNat + 1)) := by
  rw [nextRem, h, ← BitVec.shiftRight_add]
  congr 1

/-- With k bytes written, the byte ENC writes is byte k of enc(ENC_VALUE) (R72, R102). -/
theorem wireByte_eq_encByte {e : EncRegs} (h : e.rem = e.value >>> (7 * e.wptr.toNat)) :
    wireByte e.rem = encByte e.value e.wptr.toNat := by
  unfold wireByte encByte extract7
  rw [nextRem_of_shift h, h]
  have := shift_eq_zero_iff e.value (j := e.wptr.toNat + 1) (by omega)
  by_cases hx : encLen e.value ≤ e.wptr.toNat + 1
  · rw [if_neg (by simpa using this.2 hx), if_neg (by omega)]
  · rw [if_pos (by rw [ne_eq, this]; exact hx), if_pos (by omega)]

end Sys2Proof.Machine
end

