-- ==== Sys2Proof/Tests/Slice0.lean ====
section
/-! SUPPORT. The model's own tests, and witnesses for the hypotheses of the statements. Expected values come from the spec's
encodings (30_encoding.md) and test vectors (95_test_vectors.md), named in the comments. -/

namespace Sys2Proof.Tests

open Sys2Proof.Machine

/-! ### Small states -/

/-- The state after reset with one host action to come, and the host's turn next. -/
def hostState (a : HostAction) : State := { State.reset with script := [a], schedule := [.agent .host] }

/-- ENC busy, `k` bytes of `v` written, and ENC's turn next. -/
def encAt (v base cap : Word) (k : Nat) : State :=
  { State.reset with
    enc := { EncRegs.zero with value := v, base := base, cap := cap, rem := v >>> (7 * k), wptr := BitVec.ofNat 64 k,
                               busy := true },
    schedule := [.agent .enc] }

/-- DEC busy, `k` bytes read, and DEC's turn next. -/
def decAt (m : Memory) (base len acc : Word) (k : Nat) : State :=
  { State.reset with
    mem := m,
    dec := { DecRegs.zero with base := base, len := len, acc := acc, shift := BitVec.ofNat 6 (7 * k),
                               rptr := BitVec.ofNat 64 k, busy := true },
    schedule := [.agent .dec] }

/-- Vector H13: ENCODE 0x4000, 0x600, 10 accepted and one ENC step taken, with a host action to come. -/
def h13 (a : HostAction) : State := { encAt 0x4000#64 0x600#64 10#64 1 with script := [a], schedule := [.agent .host] }

/-- DEC busy, with a host action to come. -/
def decHost (a : HostAction) : State :=
  { decAt [(0x400, 0x01#8)] 0x400#64 1#64 0#64 0 with script := [a], schedule := [.agent .host] }

/-- A state whose FAULT is set. -/
def faulted (s : State) : State := { s with fault := some (.bufferNotAdmitted .host 0x5#64) }

/-- A state on a platform that admits the addresses below 0x101 and no other (vector F1). -/
def below0x101 (s : State) : State := { s with plat := { Platform.hardware with admitted := [{ first := 0, last := 0x100 }] } }

/-- The state a step goes to. -/
def after (s : State) : State :=
  match step s with
  | .next t => t
  | .fault _ => s
  | .refused _ => s

/-! ### Decoding: words written out from R75, R76 and vectors H3, H4 -/

/-- RSVD = 0, OPC = 0000. -/
theorem test_decode_nop : decode 0b0000000000000000000000000000000000000000000000000000000000000000#64 = .ok .nop := rfl
/-- RSVD = 0, OPC = 0001. -/
theorem test_decode_enc : decode 0b0000000000000000000000000000000000000000000000000000000000000001#64 = .ok .enc := rfl
/-- RSVD = 0, OPC = 0010. -/
theorem test_decode_dec : decode 0b0000000000000000000000000000000000000000000000000000000000000010#64 = .ok .dec := rfl
/-- H3, H4: every word that is no command is refused by name. -/
theorem test_decode_illegal :
    decode 0x3#64 = .error (.reservedOpcode 3#4) ∧ decode 0xF#64 = .error (.reservedOpcode 15#4) ∧
      decode 0x10#64 = .error .reservedBits ∧ decode 0x12#64 = .error .reservedBits ∧
      decode 0x8000000000000000#64 = .error .reservedBits := ⟨rfl, rfl, rfl, rfl, rfl⟩
theorem test_decodeTableWord :
    decodeTableWord 64 0 = some .nop ∧ decodeTableWord 64 1 = some .enc ∧ decodeTableWord 64 2 = some .dec ∧
      decodeTableWord 64 3 = none ∧ decodeTableWord 64 (2 ^ 63) = none := ⟨rfl, rfl, rfl, rfl, rfl⟩
theorem test_withFetchWord : step (State.reset.withFetchWord 64 0) = .next State.reset := rfl
theorem test_withFetchWord_starts :
    (after (State.reset.withFetchWord 64 1)).enc.busy = true ∧
      (after (State.reset.withFetchWord 64 2)).dec.busy = true := by decide

/-! ### Well-formedness refuses what is ill formed -/

theorem test_wf_commands : Instr.wf .nop = true ∧ Instr.wf .enc = true ∧ Instr.wf .dec = true := ⟨rfl, rfl, rfl⟩
theorem test_wf_platform_addrW : Platform.wf { Platform.hardware with addrW := 0 } = false ∧
    Platform.wf { Platform.hardware with addrW := 65 } = false ∧ Platform.wf Platform.hardware = true := by decide
theorem test_wf_platform_lenW : Platform.wf { Platform.hardware with lenW := 3 } = false ∧
    Platform.wf { Platform.hardware with lenW := 65 } = false := by decide
theorem test_wf_address : HostAction.wf { Platform.hardware with addrW := 16 } (.mw 0x10000#64 0#8) = false ∧
    HostAction.wf { Platform.hardware with addrW := 16 } (.mr 0x10000#64) = false ∧
    HostAction.wf { Platform.hardware with addrW := 16 } (.mw 0xFFFF#64 0#8) = true := by decide
theorem test_wf_memory : Memory.wf [(1, 1#8), (2, 1#8)] = true ∧ Memory.wf [(2, 1#8), (1, 1#8)] = false ∧
    Memory.wf [(1, 0#8)] = false := by decide

/-! ### Single steps of the spec's vectors -/

/-- H5: NOP with STATUS = 0x100. -/
theorem test_nop_H5 : statusWord (after { hostState (.wr .cmd 0#64) with cmdIllegal := true }) = 0x0#64 := by decide
/-- H18: NOP is accepted while ENC is busy. -/
theorem test_nop_H18 :
    statusWord (after { h13 (.wr .cmd 0#64) with cmdIllegal := true }) = 0x1#64 := by decide
/-- H6: ENC with STATUS = 0x100 and the operands of E9. -/
theorem test_enc_H6 :
    let s := { hostState (.wr .cmd 1#64) with
      cmdIllegal := true, enc := { EncRegs.zero with value := 0x12C#64, base := 0x100#64, cap := 2#64 } }
    statusWord (after s) = 0x1#64 ∧ (after s).enc.rem = 0x12C#64 ∧ (after s).enc.wptr = 0#64 := by decide
/-- H15: ENC is held while ENC is busy. -/
theorem test_enc_H15 : (after (h13 (.wr .cmd 1#64))).script = [.wr .cmd 1#64] ∧
    statusWord (after (h13 (.wr .cmd 1#64))) = 0x1#64 := by decide
/-- D22: DEC clears a result left by D5. -/
theorem test_dec_D22 :
    let s := { hostState (.wr .cmd 2#64) with
      dec := { DecRegs.zero with len := 2#64, acc := 0x12C#64, shift := 7#6, rptr := 2#64, done := true,
                                 result := 0x12C#64 } }
    statusWord (after s) = 0x10#64 ∧ hreg .decResult (after s) = 0#64 ∧ hreg .decCount (after s) = 0#64 := by decide
/-- H16: DEC is accepted while ENC is busy. -/
theorem test_dec_H16 : statusWord (after (h13 (.wr .cmd 2#64))) = 0x11#64 := by decide
/-- H17: an illegal word with OPC = 1 is accepted while ENC is busy. -/
theorem test_illegal_H17 : statusWord (after (h13 (.wr .cmd 0x11#64))) = 0x101#64 := by decide
/-- H11, H12: narrow registers keep their low bits. -/
theorem test_truncation_H11_H12 :
    hreg .encBase (after { hostState (.wr .encBase 0x12345#64) with plat := { Platform.hardware with addrW := 16 } })
        = 0x2345#64 ∧
      hreg .decLen (after { hostState (.wr .decLen 0x1F#64) with plat := { Platform.hardware with lenW := 4 } }) = 0xF#64 := by
  decide
/-- The first row of the trace of ENCODE 0x98765 (section 2.1), and the last, which completes. -/
theorem test_encoder_trace :
    (after (encAt 0x98765#64 0x500#64 3#64 0)).mem = [(0x500, 0xE5#8)] ∧
      (after (encAt 0x98765#64 0x500#64 3#64 0)).enc.rem = 0x130E#64 ∧
      (after (encAt 0x98765#64 0x500#64 3#64 2)).mem = [(0x502, 0x26#8)] ∧
      statusWord (after (encAt 0x98765#64 0x500#64 3#64 2)) = 0x2#64 := by decide
/-- E6: the second step of ENCODE 0x80 with capacity 1 stops truncated. -/
theorem test_encoder_truncates_E6 : statusWord (after (encAt 0x80#64 0x500#64 1#64 1)) = 0x6#64 ∧
    hreg .encCount (after (encAt 0x80#64 0x500#64 1#64 1)) = 1#64 := by decide
/-- E25: the address of the second byte wraps. -/
theorem test_encoder_wraps_E25 : (after (encAt 300#64 0xFFFFFFFFFFFFFFFF#64 2#64 1)).mem = [(0, 0x02#8)] := by decide
/-- The second and third rows of the trace of DECODE [E5 8E 26] (section 2.3). -/
theorem test_decoder_trace :
    (after (decAt [(0x401, 0x8E#8)] 0x400#64 3#64 0x65#64 1)).dec.acc = 0x765#64 ∧
      (after (decAt [(0x401, 0x8E#8)] 0x400#64 3#64 0x65#64 1)).dec.shift = 14#6 ∧
      hreg .decResult (after (decAt [(0x402, 0x26#8)] 0x400#64 3#64 0x765#64 2)) = 0x98765#64 ∧
      statusWord (after (decAt [(0x402, 0x26#8)] 0x400#64 3#64 0x765#64 2)) = 0x20#64 := by decide
/-- D16 and D17: after nine continuation bytes, EOF with length 9 and OVF with length 10. -/
theorem test_decoder_D16_D17 : statusWord (after (decAt [] 0#64 9#64 0#64 9)) = 0x60#64 ∧
    statusWord (after (decAt [] 0#64 10#64 0#64 9)) = 0xA0#64 := by decide

/-- F1: the second step of ENCODE 300, 0x100, 2 where only addresses below 0x101 are admitted. -/
theorem test_encoder_fault_F1 :
    let t := after (below0x101 (encAt 300#64 0x100#64 2#64 1))
    t.fault = some (.bufferNotAdmitted .enc 0x101#64) ∧ t.mem = [] ∧ hreg .encCount t = 1#64 ∧ statusWord t = 0x1#64 ∧
      t.final = false := by decide
/-- F7 on the same platform: the host's own access. -/
theorem test_host_fault_F7 :
    (after (below0x101 (hostState (.mw 0x101#64 1#8)))).fault = some (.bufferNotAdmitted .host 0x101#64) := by decide

/-! ### Witnesses: for each statement with hypotheses, states and operands that meet them

One theorem per clause, at a boundary value where the clause has a range. -/

theorem wit_CommandWordLegality : (¬ ∃ i, decode 0x3#64 = .ok i) ∧ ¬ ∃ i, decode 0x10#64 = .ok i :=
  ⟨(fun ⟨_, h⟩ => by cases h), (fun ⟨_, h⟩ => by cases h)⟩

theorem wit_StepRunsTheDecodedCommand_step :
    HostNext (hostState (.wr .cmd 1#64)) (.wr .cmd 1#64) [] ∧ decode 1#64 = .ok .enc ∧
      (hostState (.wr .cmd 1#64)).enc.busy = false := ⟨⟨rfl, rfl⟩, rfl, rfl⟩
theorem wit_StepRunsTheDecodedCommand_fetch :
    decodeTableWord 64 2 = some .dec ∧ decodeTableWord 0 7 = some .nop ∧ decodeTableWord 1 0xFF = some .enc ∧
      State.reset.dec.busy = false := ⟨rfl, rfl, rfl, rfl⟩

theorem wit_NopClearsCommandIllegal : HostNext (hostState (.wr .cmd 0#64)) (.wr .cmd 0#64) [] ∧
    ∃ t, exec .nop (hostState (.wr .cmd 0#64)) = .next t := ⟨⟨rfl, rfl⟩, _, rfl⟩

theorem wit_EncCommandStartsTransaction_idle :
    (hostState (.wr .cmd 1#64)).enc.busy = false ∧ HostNext (hostState (.wr .cmd 1#64)) (.wr .cmd 1#64) [] :=
  ⟨rfl, rfl, rfl⟩
theorem wit_EncCommandStartsTransaction_busy :
    HostNext (h13 (.wr .cmd 1#64)) (.wr .cmd 1#64) [] ∧ (h13 (.wr .cmd 1#64)).enc.busy = true := ⟨⟨rfl, rfl⟩, rfl⟩

theorem wit_DecCommandStartsTransaction_idle :
    (hostState (.wr .cmd 2#64)).dec.busy = false ∧ HostNext (hostState (.wr .cmd 2#64)) (.wr .cmd 2#64) [] :=
  ⟨rfl, rfl, rfl⟩
theorem wit_DecCommandStartsTransaction_busy :
    HostNext (decHost (.wr .cmd 2#64)) (.wr .cmd 2#64) [] ∧ (decHost (.wr .cmd 2#64)).dec.busy = true :=
  ⟨⟨rfl, rfl⟩, rfl⟩

theorem wit_IllegalCommandOnlySetsCmdIllegal_rsvd :
    HostNext (h13 (.wr .cmd 0x10#64)) (.wr .cmd 0x10#64) [] ∧ (0x10#64).extractLsb' 4 60 ≠ 0#60 :=
  ⟨⟨rfl, rfl⟩, by decide⟩
theorem wit_IllegalCommandOnlySetsCmdIllegal_opc :
    HostNext (h13 (.wr .cmd 0x3#64)) (.wr .cmd 0x3#64) [] ∧ 3 ≤ ((0x3#64).extractLsb' 0 4).toNat :=
  ⟨⟨rfl, rfl⟩, by decide⟩
theorem wit_IllegalCommandOnlySetsCmdIllegal_cleared :
    ∃ s t, s.cmdIllegal = true ∧ step s = .next t ∧ t.cmdIllegal = false :=
  ⟨{ hostState (.wr .cmd 0#64) with cmdIllegal := true }, _, rfl, rfl, rfl⟩

theorem wit_HeldWritesAndNoOthers_enc :
    HostNext (h13 (.wr .encValue 5#64)) (.wr .encValue 5#64) [] ∧ HostNext (h13 (.wr .encBase 5#64)) (.wr .encBase 5#64) [] ∧
      HostNext (h13 (.wr .encCap 5#64)) (.wr .encCap 5#64) [] ∧ HostNext (h13 (.wr .cmd 1#64)) (.wr .cmd 1#64) [] ∧
      (h13 (.wr .encValue 5#64)).enc.busy = true := ⟨⟨rfl, rfl⟩, ⟨rfl, rfl⟩, ⟨rfl, rfl⟩, ⟨rfl, rfl⟩, rfl⟩
theorem wit_HeldWritesAndNoOthers_dec :
    HostNext (decHost (.wr .decBase 5#64)) (.wr .decBase 5#64) [] ∧ HostNext (decHost (.wr .decLen 5#64)) (.wr .decLen 5#64) [] ∧
      HostNext (decHost (.wr .cmd 2#64)) (.wr .cmd 2#64) [] ∧ (decHost (.wr .decLen 5#64)).dec.busy = true :=
  ⟨⟨rfl, rfl⟩, ⟨rfl, rfl⟩, ⟨rfl, rfl⟩, rfl⟩
theorem wit_HeldWritesAndNoOthers_accepted :
    HostNext (h13 (.wr .decLen 1#64)) (.wr .decLen 1#64) [] ∧
      ¬ (((h13 (.wr .decLen 1#64)).enc.busy = true ∧ (HReg.decLen = .encValue ∨ HReg.decLen = .encBase ∨
            HReg.decLen = .encCap ∨ (HReg.decLen = .cmd ∧ 1#64 = 1#64))) ∨
          ((h13 (.wr .decLen 1#64)).dec.busy = true ∧ (HReg.decLen = .decBase ∨ HReg.decLen = .decLen ∨
            (HReg.decLen = .cmd ∧ 1#64 = 2#64)))) := ⟨⟨rfl, rfl⟩, by decide⟩
theorem wit_HeldWritesAndNoOthers_read : HostNext (h13 (.rd .encCount)) (.rd .encCount) [] := ⟨rfl, rfl⟩

theorem wit_OperandWriteStoresLowBits_enc :
    HostNext (decHost (.wr .encValue 5#64)) (.wr .encValue 5#64) [] ∧
      HostNext (decHost (.wr .encBase 0xFFFFFFFFFFFFFFFF#64)) (.wr .encBase 0xFFFFFFFFFFFFFFFF#64) [] ∧
      HostNext (decHost (.wr .encCap 0#64)) (.wr .encCap 0#64) [] ∧ (decHost (.wr .encValue 5#64)).enc.busy = false :=
  ⟨⟨rfl, rfl⟩, ⟨rfl, rfl⟩, ⟨rfl, rfl⟩, rfl⟩
theorem wit_OperandWriteStoresLowBits_dec :
    HostNext (h13 (.wr .decBase 0#64)) (.wr .decBase 0#64) [] ∧
      HostNext (h13 (.wr .decLen 0xFFFFFFFFFFFFFFFF#64)) (.wr .decLen 0xFFFFFFFFFFFFFFFF#64) [] ∧
      (h13 (.wr .decBase 0#64)).dec.busy = false := ⟨⟨rfl, rfl⟩, ⟨rfl, rfl⟩, rfl⟩

theorem wit_ReadOnlyAndReservedWritesDoNothing :
    HostNext (h13 (.wr .status 5#64)) (.wr .status 5#64) [] ∧ HostNext (h13 (.wr .encCount 5#64)) (.wr .encCount 5#64) [] ∧
      HostNext (h13 (.wr .decResult 5#64)) (.wr .decResult 5#64) [] ∧
      HostNext (h13 (.wr .decCount 5#64)) (.wr .decCount 5#64) [] ∧
      HostNext (h13 (.wr (.reserved 0) 5#64)) (.wr (.reserved 0) 5#64) [] ∧
      HostNext (h13 (.wr (.reserved 5) 5#64)) (.wr (.reserved 5) 5#64) [] :=
  ⟨⟨rfl, rfl⟩, ⟨rfl, rfl⟩, ⟨rfl, rfl⟩, ⟨rfl, rfl⟩, ⟨rfl, rfl⟩, ⟨rfl, rfl⟩⟩

theorem wit_RegisterReadReturnsHreg : HostNext (h13 (.rd .status)) (.rd .status) [] ∧
    HostNext (hostState (.rd (.reserved 5))) (.rd (.reserved 5)) [] := ⟨⟨rfl, rfl⟩, rfl, rfl⟩

/-- The ends of the reserved range of STATUS. -/
theorem wit_StatusWordLayout : 9 ≤ (9 : Nat) ∧ 9 ≤ (63 : Nat) := by decide

theorem wit_WaitPollsStatus_done :
    HostNext (h13 (.wait 0x3#64 0x1#64)) (.wait 0x3#64 0x1#64) [] ∧
      statusWord (h13 (.wait 0x3#64 0x1#64)) &&& 0x3#64 = 0x1#64 := ⟨⟨rfl, rfl⟩, by decide⟩
theorem wit_WaitPollsStatus_again :
    HostNext (h13 (.wait 0x3#64 0x2#64)) (.wait 0x3#64 0x2#64) [] ∧
      statusWord (h13 (.wait 0x3#64 0x2#64)) &&& 0x3#64 ≠ 0x2#64 := ⟨⟨rfl, rfl⟩, by decide⟩

theorem wit_BufferReadsAndWritesOneByte :
    State.reset.mem.wf = true ∧ admits State.reset.plat 0#64 = true ∧
      admits State.reset.plat 0xFFFFFFFFFFFFFFFF#64 = true ∧ admits (below0x101 State.reset).plat 0x100#64 = true ∧
      admits (below0x101 State.reset).plat 0x101#64 = false := by decide

theorem wit_HostBufferAccess_write :
    HostNext (hostState (.mw 0xFFFFFFFFFFFFFFFF#64 1#8)) (.mw 0xFFFFFFFFFFFFFFFF#64 1#8) [] ∧
      (hostState (.mw 0xFFFFFFFFFFFFFFFF#64 1#8)).mem.wf = true ∧
      admits (hostState (.mw 0xFFFFFFFFFFFFFFFF#64 1#8)).plat 0xFFFFFFFFFFFFFFFF#64 = true := ⟨⟨rfl, rfl⟩, rfl, by decide⟩
theorem wit_HostBufferAccess_read :
    HostNext (hostState (.mr 0#64)) (.mr 0#64) [] ∧ admits (hostState (.mr 0#64)).plat 0#64 = true :=
  ⟨⟨rfl, rfl⟩, by decide⟩
theorem wit_HostBufferAccess_fault :
    HostNext (below0x101 (hostState (.mw 0x101#64 1#8))) (.mw 0x101#64 1#8) [] ∧
      HostNext (below0x101 (hostState (.mr 0x101#64))) (.mr 0x101#64) [] ∧
      admits (below0x101 (hostState (.mr 0x101#64))).plat 0x101#64 = false := ⟨⟨rfl, rfl⟩, ⟨rfl, rfl⟩, by decide⟩

/-- ENC about to write its tenth and last byte, in a state of the invariant. -/
theorem inv_encAt_nine : MachineInv (encAt 0xFFFFFFFFFFFFFFFF#64 0x100#64 10#64 9) :=
  ⟨by decide, by constructor <;> decide, by constructor <;> decide, ⟨by decide, by decide⟩⟩
/-- DEC about to read its ninth byte, in a state of the invariant. -/
theorem inv_decAt_eight : MachineInv (decAt [] 0x100#64 9#64 0#64 8) :=
  ⟨by decide, by constructor <;> decide, by constructor <;> decide, ⟨by decide, by decide⟩⟩

theorem wit_EffectiveAddressWraps_sum : Platform.hardware.wf = true ∧
    Platform.wf { addrW := 1, lenW := 4, admitted := [] } = true := by decide
theorem wit_EffectiveAddressWraps_enc :
    MachineInv (encAt 0xFFFFFFFFFFFFFFFF#64 0x100#64 10#64 9) ∧
      encEnabled (encAt 0xFFFFFFFFFFFFFFFF#64 0x100#64 10#64 9) = true ∧
      (encAt 0xFFFFFFFFFFFFFFFF#64 0x100#64 10#64 9).enc.wptr ≠ (encAt 0xFFFFFFFFFFFFFFFF#64 0x100#64 10#64 9).enc.cap :=
  ⟨inv_encAt_nine, rfl, by decide⟩
theorem wit_EffectiveAddressWraps_dec :
    MachineInv (decAt [] 0x100#64 9#64 0#64 8) ∧ decEnabled (decAt [] 0x100#64 9#64 0#64 8) = true ∧
      (decAt [] 0x100#64 9#64 0#64 8).dec.rptr ≠ (decAt [] 0x100#64 9#64 0#64 8).dec.len ∧
      (decAt [] 0x100#64 9#64 0#64 8).dec.shift.toNat < 63 := ⟨inv_decAt_eight, rfl, by decide, by decide⟩

theorem wit_EncoderStep_disabled :
    nextTurn { State.reset with schedule := [.agent .enc] } = .agent .enc ∧
      { State.reset with schedule := [.agent .enc] }.enc.busy = false ∧
      (faulted (encAt 5#64 0#64 1#64 0)).fault ≠ none := ⟨rfl, rfl, by decide⟩
theorem wit_EncoderStep_full :
    nextTurn (encAt 0x80#64 0x500#64 1#64 1) = .agent .enc ∧ (encAt 0x80#64 0x500#64 1#64 1).enc.busy = true ∧
      (encAt 0x80#64 0x500#64 1#64 1).fault = none ∧
      (encAt 0x80#64 0x500#64 1#64 1).enc.wptr = (encAt 0x80#64 0x500#64 1#64 1).enc.cap := ⟨rfl, rfl, rfl, rfl⟩
theorem wit_EncoderStep_writes :
    nextTurn (encAt 0x80#64 0x500#64 2#64 1) = .agent .enc ∧ (encAt 0x80#64 0x500#64 2#64 1).enc.busy = true ∧
      (encAt 0x80#64 0x500#64 2#64 1).fault = none ∧
      (encAt 0x80#64 0x500#64 2#64 1).enc.wptr ≠ (encAt 0x80#64 0x500#64 2#64 1).enc.cap ∧
      (encAt 0x80#64 0x500#64 2#64 1).mem.wf = true ∧
      admits (encAt 0x80#64 0x500#64 2#64 1).plat (effAddr (encAt 0x80#64 0x500#64 2#64 1).plat 0x500#64 1#64) = true :=
  ⟨rfl, rfl, rfl, by decide, rfl, by decide⟩
theorem wit_EncoderStep_fault :
    nextTurn (below0x101 (encAt 300#64 0x100#64 2#64 1)) = .agent .enc ∧
      (below0x101 (encAt 300#64 0x100#64 2#64 1)).enc.busy = true ∧
      (below0x101 (encAt 300#64 0x100#64 2#64 1)).fault = none ∧
      (below0x101 (encAt 300#64 0x100#64 2#64 1)).enc.wptr ≠ (below0x101 (encAt 300#64 0x100#64 2#64 1)).enc.cap ∧
      admits (below0x101 (encAt 300#64 0x100#64 2#64 1)).plat
        (effAddr (below0x101 (encAt 300#64 0x100#64 2#64 1)).plat 0x100#64 1#64) = false :=
  ⟨rfl, rfl, rfl, by decide, by decide⟩

theorem wit_DecoderStep_disabled :
    nextTurn { State.reset with schedule := [.agent .dec] } = .agent .dec ∧
      { State.reset with schedule := [.agent .dec] }.dec.busy = false ∧
      (faulted (decAt [] 0#64 1#64 0#64 0)).fault ≠ none := ⟨rfl, rfl, by decide⟩
/-- D16: the pointer at the length and the shift at 63, which is EOF. -/
theorem wit_DecoderStep_eof :
    nextTurn (decAt [] 0#64 9#64 0#64 9) = .agent .dec ∧ (decAt [] 0#64 9#64 0#64 9).dec.busy = true ∧
      (decAt [] 0#64 9#64 0#64 9).fault = none ∧
      (decAt [] 0#64 9#64 0#64 9).dec.rptr = (decAt [] 0#64 9#64 0#64 9).dec.len := ⟨rfl, rfl, rfl, rfl⟩
theorem wit_DecoderStep_ovf :
    nextTurn (decAt [] 0#64 10#64 0#64 9) = .agent .dec ∧ (decAt [] 0#64 10#64 0#64 9).dec.busy = true ∧
      (decAt [] 0#64 10#64 0#64 9).fault = none ∧
      (decAt [] 0#64 10#64 0#64 9).dec.rptr ≠ (decAt [] 0#64 10#64 0#64 9).dec.len ∧
      63 ≤ (decAt [] 0#64 10#64 0#64 9).dec.shift.toNat := ⟨rfl, rfl, rfl, by decide, by decide⟩
/-- The ninth byte, at shift 56; 0x7F ends the transaction and 0x80 continues it. -/
theorem wit_DecoderStep_reads :
    nextTurn (decAt [(0x408, 0x7F#8)] 0x400#64 9#64 0#64 8) = .agent .dec ∧
      (decAt [(0x408, 0x7F#8)] 0x400#64 9#64 0#64 8).dec.busy = true ∧
      (decAt [(0x408, 0x7F#8)] 0x400#64 9#64 0#64 8).fault = none ∧
      (decAt [(0x408, 0x7F#8)] 0x400#64 9#64 0#64 8).dec.rptr ≠ (decAt [(0x408, 0x7F#8)] 0x400#64 9#64 0#64 8).dec.len ∧
      (decAt [(0x408, 0x7F#8)] 0x400#64 9#64 0#64 8).dec.shift.toNat < 63 ∧
      admits Platform.hardware (effAddr Platform.hardware 0x400#64 8#64) = true ∧
      ((decAt [(0x408, 0x7F#8)] 0x400#64 9#64 0#64 8).mem.read 0x408).getLsbD 7 = false ∧
      ((decAt [(0x408, 0x80#8)] 0x400#64 9#64 0#64 8).mem.read 0x408).getLsbD 7 = true :=
  ⟨rfl, rfl, rfl, by decide, by decide, by decide, by decide, by decide⟩
theorem wit_DecoderStep_fault :
    nextTurn (below0x101 (decAt [] 0x101#64 1#64 0#64 0)) = .agent .dec ∧
      (below0x101 (decAt [] 0x101#64 1#64 0#64 0)).dec.busy = true ∧
      (below0x101 (decAt [] 0x101#64 1#64 0#64 0)).fault = none ∧
      (below0x101 (decAt [] 0x101#64 1#64 0#64 0)).dec.rptr ≠ (below0x101 (decAt [] 0x101#64 1#64 0#64 0)).dec.len ∧
      (below0x101 (decAt [] 0x101#64 1#64 0#64 0)).dec.shift.toNat < 63 ∧
      admits (below0x101 (decAt [] 0x101#64 1#64 0#64 0)).plat
        (effAddr (below0x101 (decAt [] 0x101#64 1#64 0#64 0)).plat 0x101#64 0#64) = false :=
  ⟨rfl, rfl, rfl, by decide, by decide, by decide⟩

/-- F5: the step that raises the fault. -/
theorem wit_FaultStopsEnginesAndNothingElse_raise :
    ∃ s t, step s = .next t ∧ t.fault ≠ s.fault :=
  ⟨below0x101 (decAt [] 0x101#64 1#64 0#64 0), _, rfl, by decide⟩
theorem wit_FaultStopsEnginesAndNothingElse_engines :
    (faulted (encAt 5#64 0#64 1#64 0)).fault ≠ none ∧ nextTurn (faulted (encAt 5#64 0#64 1#64 0)) = .agent .enc ∧
      nextTurn (faulted (decAt [] 0#64 1#64 0#64 0)) = .agent .dec := ⟨by decide, rfl, rfl⟩
theorem wit_FaultStopsEnginesAndNothingElse_host :
    (faulted (h13 (.wr .cmd 2#64))).fault ≠ none ∧ HostNext (faulted (h13 (.wr .cmd 2#64))) (.wr .cmd 2#64) [] ∧
      held (.wr .cmd 2#64) (faulted (h13 (.wr .cmd 2#64))) = false ∧
      HostNext (faulted (h13 (.rd .status))) (.rd .status) [] ∧ held (.rd .status) (faulted (h13 (.rd .status))) = false :=
  ⟨by decide, ⟨rfl, rfl⟩, rfl, ⟨rfl, rfl⟩, rfl⟩
theorem wit_FaultStopsEnginesAndNothingElse_busy :
    ∃ s t, s.fault ≠ none ∧ step s = .next t ∧ nextTurn s ≠ .reset ∧ s.enc.busy = true :=
  ⟨faulted (encAt 5#64 0#64 1#64 0), _, by decide, rfl, by decide, rfl⟩

/-- F8: reset with FAULT set. -/
theorem wit_FaultIsNeverCleared :
    ∃ s t, s.fault ≠ none ∧ nextTurn s = .reset ∧ step s = .next t :=
  ⟨{ faulted (encAt 5#64 0#64 1#64 0) with schedule := [.reset] }, _, by decide, rfl, rfl⟩

/-- Reset in the middle of a transaction. -/
theorem wit_ResetClearsEveryRegister :
    nextTurn { encAt 0x4000#64 0x600#64 10#64 1 with schedule := [.reset] } = .reset := rfl

theorem wit_WhoMayWriteWhat_mem : ∃ s t, step s = .next t ∧ t.mem ≠ s.mem :=
  ⟨hostState (.mw 5#64 1#8), _, rfl, by decide⟩
theorem wit_WhoMayWriteWhat_cmdIllegal : ∃ s t, step s = .next t ∧ t.cmdIllegal ≠ s.cmdIllegal :=
  ⟨hostState (.wr .cmd 3#64), _, rfl, by decide⟩
theorem wit_WhoMayWriteWhat_enc : ∃ s t, step s = .next t ∧ t.enc ≠ s.enc :=
  ⟨hostState (.wr .encCap 1#64), _, rfl, by decide⟩
theorem wit_WhoMayWriteWhat_dec : ∃ s t, step s = .next t ∧ t.dec ≠ s.dec :=
  ⟨hostState (.wr .decLen 1#64), _, rfl, by decide⟩
theorem wit_WhoMayWriteWhat_reads : ∃ s t, step s = .next t ∧ t.reads ≠ s.reads :=
  ⟨hostState (.rd .cmd), _, rfl, by decide⟩

theorem wit_BusyBitsChangeOnlyAtStartAndEnd_start :
    (∃ s t, step s = .next t ∧ s.enc.busy = false ∧ t.enc.busy = true) ∧
      ∃ s t, step s = .next t ∧ s.dec.busy = false ∧ t.dec.busy = true :=
  ⟨⟨hostState (.wr .cmd 1#64), _, rfl, rfl, rfl⟩, hostState (.wr .cmd 2#64), _, rfl, rfl, rfl⟩
theorem wit_BusyBitsChangeOnlyAtStartAndEnd_end :
    (∃ s t, step s = .next t ∧ s.enc.busy = true ∧ t.enc.busy = false) ∧
      ∃ s t, step s = .next t ∧ s.dec.busy = true ∧ t.dec.busy = false :=
  ⟨⟨encAt 0x7F#64 0#64 1#64 0, _, rfl, rfl, rfl⟩, decAt [] 0#64 0#64 0#64 0, _, rfl, rfl, rfl⟩

theorem wit_OperandsAreFixedWhileBusy :
    ∃ s t, step s = .next t ∧ nextTurn s ≠ .reset ∧ s.enc.busy = true ∧ s.dec.busy = true :=
  ⟨{ h13 (.wr .encValue 5#64) with dec := (decAt [] 0#64 1#64 0#64 0).dec }, _, rfl, by decide, rfl, rfl⟩

theorem wit_EnginesAreIndependent :
    (∃ s t, nextTurn s = .agent .enc ∧ step s = .next t) ∧ ∃ s t, nextTurn s = .agent .dec ∧ step s = .next t :=
  ⟨⟨encAt 5#64 0#64 1#64 0, _, rfl, rfl⟩, decAt [] 0#64 1#64 0#64 0, _, rfl, rfl⟩

/-- A turn that writes, over a content that holds its byte already, and one that does not write. -/
theorem wit_EncoderFootprint_anyContent :
    (∃ s t, ∃ m : Memory, nextTurn s = .agent .enc ∧ step s = .next t ∧ m ≠ s.mem ∧ m.wf = true ∧ s.mem.wf = true ∧
        encEnabled s = true ∧ s.enc.wptr ≠ s.enc.cap ∧ admits s.plat (effAddr s.plat s.enc.base s.enc.wptr) = true) ∧
      ∃ s t, ∃ m : Memory, nextTurn s = .agent .enc ∧ step s = .next t ∧ m ≠ s.mem ∧
        ¬ (encEnabled s = true ∧ s.enc.wptr ≠ s.enc.cap ∧
          admits s.plat (effAddr s.plat s.enc.base s.enc.wptr) = true) :=
  ⟨⟨encAt 0xFFFFFFFFFFFFFFFF#64 0x100#64 10#64 9, _, [(0x109, 1#8)], rfl, rfl, by decide, rfl, rfl, rfl, by decide,
      by decide⟩,
    encAt 0x80#64 0x500#64 1#64 1, _, [(0x501, 1#8)], rfl, rfl, by decide, by decide⟩
theorem wit_EncoderFootprint :
    ∃ s t b, MachineInv s ∧ nextTurn s = .agent .enc ∧ step s = .next t ∧ t.mem.read b ≠ s.mem.read b :=
  ⟨encAt 0xFFFFFFFFFFFFFFFF#64 0x100#64 10#64 9, _, 0x109, inv_encAt_nine, rfl, rfl, by decide⟩

/-- One case at the length, where any content will do, and one where the byte at the pointer agrees. -/
theorem wit_DecoderFootprint :
    (∃ s t, nextTurn s = .agent .dec ∧ step s = .next t ∧ s.dec.rptr = s.dec.len) ∧
      ∃ s t, ∃ m : Memory, nextTurn s = .agent .dec ∧ step s = .next t ∧ s.dec.rptr ≠ s.dec.len ∧ m ≠ s.mem ∧
        m.read (effAddr s.plat s.dec.base s.dec.rptr).toNat = s.mem.read (effAddr s.plat s.dec.base s.dec.rptr).toNat :=
  ⟨⟨decAt [] 0#64 0#64 0#64 0, _, rfl, rfl, rfl⟩,
    decAt [(5, 1#8)] 5#64 1#64 0#64 0, _, [(5, 1#8), (6, 7#8)], rfl, rfl, by decide, by decide, by decide⟩

/-- Both engines at work on different bytes. -/
theorem wit_EngineStepsCommute :
    ∃ s, encAddr s ≠ decAddr s ∧ (encTurn s).fault = none ∧ (decTurn s).fault = none ∧ encEnabled s = true ∧
      decEnabled s = true :=
  ⟨{ encAt 300#64 0x100#64 2#64 0 with dec := (decAt [] 0x200#64 1#64 0#64 0).dec }, by decide, by decide, by decide, rfl, rfl⟩

theorem wit_RaceTakesTheLaterWrite :
    ∃ s v script', s.mem.wf = true ∧ encEnabled s = true ∧ s.enc.wptr ≠ s.enc.cap ∧
      admits s.plat (encAddr s) = true ∧ s.script = .mw (encAddr s) v :: script' :=
  ⟨{ encAt 300#64 0x100#64 2#64 0 with script := [.mw 0x100#64 0x55#8] }, 0x55#8, [], rfl, rfl, by decide, by decide, rfl⟩

/-- The narrowest part, with a byte at its last address. -/
theorem wit_LaunchSatisfiesInvariant :
    Platform.wf { addrW := 1, lenW := 4, admitted := [] } = true ∧
      MemInv { addrW := 1, lenW := 4, admitted := [] } [(1, 0xFF#8)] := ⟨by decide, ⟨by decide, by decide⟩⟩

theorem wit_EveryStepKeepsInvariant : ∃ s t, MachineInv s ∧ step s = .next t ∧ t.mem ≠ s.mem :=
  ⟨encAt 0xFFFFFFFFFFFFFFFF#64 0x100#64 10#64 9, _, inv_encAt_nine, rfl, by decide⟩

/-- Both engines busy on separate spans, ENC with a byte written and DEC with a byte read, and the host writing elsewhere. -/
def bothBusy : State :=
  { State.reset with
    enc := (encAt 0x4000#64 0x100#64 3#64 1).enc,
    dec := (decAt [] 0x200#64 2#64 0#64 1).dec,
    mem := [(0x100, 0x80#8), (0x200, 0x80#8)],
    script := [.mw 0x300#64 1#8], schedule := [.agent .enc] }

theorem inv_bothBusy : MachineInv bothBusy :=
  ⟨by decide, by constructor <;> decide, by constructor <;> decide, ⟨by decide, by decide⟩⟩

theorem raceFree_bothBusy : RaceFree bothBusy := by
  refine ⟨fun _ _ a h => ?_, fun a rest h => ?_⟩
  · simp only [inEncSpan, List.any_eq_true, List.mem_range, beq_iff_eq] at h
    obtain ⟨k, hk, rfl⟩ := h
    have hk3 : k < 3 := hk
    match k, hk3 with
    | 0, _ => decide
    | 1, _ => decide
    | 2, _ => decide
  · have hs := h.2
    simp only [bothBusy, List.cons.injEq] at hs
    obtain ⟨rfl, -⟩ := hs
    decide

theorem prefixes_bothBusy : WrittenPrefix bothBusy ∧ ReadPrefix bothBusy := by
  refine ⟨fun _ k hk _ => ?_, fun _ => ⟨by decide, fun k hk => ?_⟩⟩
  · have h0 : k < 1 := hk
    obtain rfl : k = 0 := by omega
    decide
  · have h0 : k < 1 := hk
    obtain rfl : k = 0 := by omega
    decide

/-- A turn of ENC, which writes the first span and not the second. -/
theorem wit_RaceFreeStepsKeepPrefixes_encTurn :
    ∃ t, MachineInv bothBusy ∧ RaceFree bothBusy ∧ EncSpanKept bothBusy ∧ DecSpanKept bothBusy ∧
      step bothBusy = .next t ∧ WrittenPrefix bothBusy ∧ ReadPrefix bothBusy := by
  have noHost : ∀ a rest, ¬ HostNext bothBusy a rest := fun _ _ h => absurd h.1 (by decide)
  exact ⟨_, inv_bothBusy, raceFree_bothBusy, fun a v rest h => absurd h (noHost _ _),
    ⟨fun a v rest h => absurd h (noHost _ _), fun _ _ _ => by decide⟩, rfl, prefixes_bothBusy⟩
/-- The same block with a turn of the host that reads ENC's span, which breaks R242 and neither prefix. -/
theorem wit_RaceFreeStepsKeepPrefixes_hostRead :
    ∃ t, step { bothBusy with script := [.mr 0x100#64], schedule := [.agent .host] } = .next t ∧
      ¬ RaceFree { bothBusy with script := [.mr 0x100#64], schedule := [.agent .host] } ∧
      EncSpanKept { bothBusy with script := [.mr 0x100#64], schedule := [.agent .host] } ∧
      DecSpanKept { bothBusy with script := [.mr 0x100#64], schedule := [.agent .host] } := by
  refine ⟨_, rfl, fun h => absurd (h.2 _ _ ⟨rfl, rfl⟩) (by decide), fun a v rest h => ?_, fun a v rest h => ?_, fun h => ?_⟩
  · exact absurd (List.cons.inj h.2).1 (by simp)
  · exact absurd (List.cons.inj h.2).1 (by simp)
  · exact absurd h (by decide)

/-- The boundary values of the ranges: 2^63, and 1 < n(v) from 0x80 up. -/
theorem wit_ShapeOfAnEncoding :
    (1 ≤ (9 : Nat) ∧ (9 : Nat) ≤ 9) ∧ 9 < encLen 0x8000000000000000#64 ∧
      2 ^ 63 ≤ (0x8000000000000000#64).toNat ∧ 1 < encLen 0x80#64 := by decide

/-- Operands, command and turns of an encode transaction by ENC alone. -/
def encSetup (p : Platform) (v base cap : Word) (steps : Nat) : State :=
  { State.reset with
    plat := p, enc := { EncRegs.zero with value := v, base := base, cap := cap }, script := [.wr .cmd 1#64],
    schedule := .agent .host :: (List.replicate steps (.agent .enc) ++ []) }

/-- E19 (complete, ten bytes) and E20 (truncated, ten steps). -/
theorem wit_EncodeTransaction :
    encLen 0x8000000000000000#64 = 10 ∧ 10 = min (10#64).toNat 10 ∧ 10 = 10 + (if (10#64).toNat < 10 then 1 else 0) ∧
      9 = min (9#64).toNat 10 ∧ 10 = 9 + (if (9#64).toNat < 10 then 1 else 0) ∧ Platform.hardware.wf = true ∧
      (encSetup Platform.hardware 0x8000000000000000#64 0#64 10#64 10).mem.wf = true ∧
      (encSetup Platform.hardware 0x8000000000000000#64 0#64 10#64 10).fault = none ∧
      (encSetup Platform.hardware 0x8000000000000000#64 0#64 10#64 10).enc.busy = false ∧
      (encSetup Platform.hardware 0x8000000000000000#64 0#64 10#64 10).script = .wr .cmd 1#64 :: [] ∧
      (encSetup Platform.hardware 0x8000000000000000#64 0#64 10#64 10).schedule =
        .agent .host :: (List.replicate 10 (.agent .enc) ++ []) := by decide
/-- The admitted span of the same setup, and its distinct offsets. -/
theorem wit_EncodeTransaction_span : SpanAdmitted Platform.hardware 0#64 10 ∧ OffsetsDistinct Platform.hardware 10 :=
  ⟨by unfold SpanAdmitted; decide, by unfold OffsetsDistinct; decide⟩
/-- On the narrowest part, where offset 0 shares its address with offset 2, offset 2 is the last at its address. -/
theorem wit_EncodeTransaction_narrow :
    let p : Platform := { addrW := 1, lenW := 4, admitted := [{ first := 0, last := 1 }] }
    p.wf = true ∧ SpanAdmitted p 0#64 3 ∧ LastAtItsAddress p 0#64 3 2 ∧ LastAtItsAddress p 0#64 3 1 ∧
      ¬ LastAtItsAddress p 0#64 3 0 := by
  refine ⟨by decide, ?_, ?_, ?_, ?_⟩
  · unfold SpanAdmitted; decide
  · intro j h1 h2; omega
  · intro j h1 h2
    obtain rfl : j = 2 := by omega
    decide
  · intro h
    exact h 2 (by omega) (by omega) (by decide)

/-- Command and turns of a decode transaction by DEC alone, over `m`. -/
def decSetup (m : Memory) (base len : Word) (steps : Nat) : State :=
  { State.reset with
    mem := m, dec := { DecRegs.zero with base := base, len := len }, script := [.wr .cmd 2#64],
    schedule := .agent .host :: (List.replicate steps (.agent .dec) ++ []) }

/-- Nine bytes 0x80 from address 0. -/
def nine80 : Memory := (List.range 9).map (fun k => (k, 0x80#8))

/-- D1: a terminator at offset 0. -/
theorem wit_DecodeTransaction_ok :
    firstTerminator (byteAt (decSetup [] 0#64 1#64 1) 0#64) (min (1#64).toNat 9) = some 0 ∧
      (decSetup [] 0#64 1#64 1).plat.wf = true ∧ (decSetup [] 0#64 1#64 1).fault = none ∧
      (decSetup [] 0#64 1#64 1).dec.busy = false ∧ (decSetup [] 0#64 1#64 1).script = .wr .cmd 2#64 :: [] ∧
      (decSetup [] 0#64 1#64 1).schedule = .agent .host :: (List.replicate 1 (.agent .dec) ++ []) ∧
      admits (decSetup [] 0#64 1#64 1).plat (effAddr (decSetup [] 0#64 1#64 1).plat 0#64 0#64) = true := by decide
/-- D16: nine continuation bytes with length 9. -/
theorem wit_DecodeTransaction_eof :
    firstTerminator (byteAt (decSetup nine80 0#64 9#64 10) 0#64) (min (9#64).toNat 9) = none ∧ (9#64).toNat ≤ 9 ∧
      (decSetup nine80 0#64 9#64 10).schedule = .agent .host :: (List.replicate 10 (.agent .dec) ++ []) := by decide
/-- D17 to D19: nine continuation bytes with length 10. -/
theorem wit_DecodeTransaction_ovf :
    firstTerminator (byteAt (decSetup nine80 0#64 10#64 10) 0#64) (min (10#64).toNat 9) = none ∧ 10 ≤ (10#64).toNat ∧
      (decSetup nine80 0#64 10#64 10).schedule = .agent .host :: (List.replicate 10 (.agent .dec) ++ []) := by decide
theorem wit_DecodeTransaction_span : SpanAdmitted (decSetup nine80 0#64 10#64 10).plat 0#64 9 := by
  unfold SpanAdmitted; decide

/-- ENC started on 0x7F with capacity 1; the host reads, and then ENC writes its one byte. -/
def encWithHost : State :=
  { encAt 0x7F#64 0x100#64 1#64 0 with script := [.rd .status], schedule := [.agent .host, .agent .enc] }

theorem wit_EncodeUnderAnyInterleaving :
    ∃ t, MachineInv encWithHost ∧ encWithHost.enc.busy = true ∧ encWithHost.enc.wptr = 0#64 ∧ EncRun 1 encWithHost t ∧
      t.enc.busy = false ∧ OffsetsDistinct encWithHost.plat (min encWithHost.enc.cap.toNat (encLen encWithHost.enc.value)) := by
  have kept : EncSpanKept encWithHost := fun a v rest h => by
    have hs := h.2
    simp only [encWithHost, List.cons.injEq] at hs
    exact absurd hs.1 (by simp)
  exact ⟨_, ⟨by decide, by constructor <;> decide, by constructor <;> decide, ⟨by decide, by decide⟩⟩, rfl, rfl,
    .otherTurn rfl (by decide) (by decide) kept rfl (.encTurn rfl rfl rfl (.refl _)), rfl,
    by unfold OffsetsDistinct; decide⟩

/-- DEC started on the byte 0x00 with length 1; the host reads, and then DEC reads its one byte. -/
def decWithHost : State :=
  { decAt [] 0x100#64 1#64 0#64 0 with script := [.rd .status], schedule := [.agent .host, .agent .dec] }

theorem wit_DecodeUnderAnyInterleaving :
    ∃ t, MachineInv decWithHost ∧ decWithHost.dec.busy = true ∧ decWithHost.dec.rptr = 0#64 ∧ DecRun 1 decWithHost t ∧
      t.dec.busy = false ∧ firstTerminator (byteAt decWithHost 0x100#64) (min (1#64).toNat 9) = some 0 := by
  have kept : DecSpanKept decWithHost := by
    refine ⟨fun a v rest h => ?_, fun h => ?_⟩
    · have hs := h.2
      simp only [decWithHost, List.cons.injEq] at hs
      exact absurd hs.1 (by simp)
    · exact absurd h (by decide)
  exact ⟨_, ⟨by decide, by constructor <;> decide, by constructor <;> decide, ⟨by decide, by decide⟩⟩, rfl, rfl,
    .otherTurn rfl (by decide) (by decide) kept rfl (.decTurn rfl rfl rfl (.refl _)), rfl, by decide⟩
/-- The two other cases of the statement, at their boundary: nine continuation bytes with length 9 and with length 10. -/
theorem wit_DecodeUnderAnyInterleaving_none :
    firstTerminator (byteAt (decAt nine80 0#64 9#64 0#64 0) 0#64) (min (9#64).toNat 9) = none ∧
      firstTerminator (byteAt (decAt nine80 0#64 10#64 0#64 0) 0#64) (min (10#64).toNat 9) = none := by decide

/-- The setup of a round trip: both commands, n turns of ENC and n of DEC. -/
def roundSetup (v : Word) (n : Nat) : State :=
  { State.reset with
    enc := { EncRegs.zero with value := v, cap := 10#64 }, dec := { DecRegs.zero with len := 10#64 },
    script := [.wr .cmd 1#64, .wr .cmd 2#64],
    schedule := .agent .host :: (List.replicate n (.agent .enc) ++ .agent .host :: (List.replicate n (.agent .dec) ++ [])) }

/-- 2^63 - 1 comes back; 2^63 does not. -/
theorem wit_EncodeThenDecodeRoundTrip :
    9 = encLen (roundSetup 0x7FFFFFFFFFFFFFFF#64 9).enc.value ∧ (0x7FFFFFFFFFFFFFFF#64).toNat < 2 ^ 63 ∧
      10 = encLen (roundSetup 0x8000000000000000#64 10).enc.value ∧ 2 ^ 63 ≤ (0x8000000000000000#64).toNat ∧
      10 ≤ (roundSetup 0x8000000000000000#64 10).enc.cap.toNat ∧ 10 ≤ (roundSetup 0x8000000000000000#64 10).dec.len.toNat ∧
      (roundSetup 0x8000000000000000#64 10).dec.base = (roundSetup 0x8000000000000000#64 10).enc.base ∧
      (roundSetup 0x8000000000000000#64 10).plat.wf = true ∧ (roundSetup 0x8000000000000000#64 10).mem.wf = true ∧
      (roundSetup 0x8000000000000000#64 10).fault = none ∧ (roundSetup 0x8000000000000000#64 10).enc.busy = false ∧
      (roundSetup 0x8000000000000000#64 10).dec.busy = false := by decide
theorem wit_EncodeThenDecodeRoundTrip_host :
    OffsetsDistinct Platform.hardware 10 ∧ SpanAdmitted Platform.hardware 0#64 10 ∧
      (roundSetup 0x8000000000000000#64 10).script = .wr .cmd 1#64 :: .wr .cmd 2#64 :: [] ∧
      (roundSetup 0x8000000000000000#64 10).schedule = .agent .host :: (List.replicate 10 (.agent .enc) ++
        .agent .host :: (List.replicate 10 (.agent .dec) ++ [])) :=
  ⟨wit_EncodeTransaction_span.2, wit_EncodeTransaction_span.1, rfl, rfl⟩

/-- S1, S9 (even where nothing is admitted), S8. -/
theorem wit_ZeroValueCapacityAndLength :
    (encSetup Platform.hardware 0#64 0#64 1#64 1).enc.cap ≠ 0#64 ∧ admits Platform.hardware (effAddr Platform.hardware 0#64 0#64) = true ∧
      (encSetup Platform.hardware 0#64 0#64 1#64 1).schedule = .agent .host :: .agent .enc :: [] ∧
      (encSetup { Platform.hardware with admitted := [] } 5#64 0#64 0#64 1).enc.cap = 0#64 ∧
      (encSetup { Platform.hardware with admitted := [] } 5#64 0#64 0#64 1).enc.busy = false ∧
      (decSetup [] 0#64 0#64 1).dec.len = 0#64 ∧ (decSetup [] 0#64 0#64 1).dec.busy = false ∧
      (decSetup [] 0#64 0#64 1).schedule = .agent .host :: .agent .dec :: [] := by decide

theorem wit_TransactionsEndWithinTenSteps :
    MachineInv bothBusy ∧ bothBusy.fault = none ∧ bothBusy.enc.busy = true ∧ bothBusy.dec.busy = true ∧
      ({ bothBusy with schedule := List.replicate 10 (.agent .enc) ++ [] } : State).schedule =
        List.replicate 10 (.agent .enc) ++ [] := ⟨inv_bothBusy, rfl, rfl, rfl, rfl⟩

end Sys2Proof.Tests
end

section
/-! SUPPORT. What one step does to each part of the block, said once: the encoder's registers (10_state.md R23), the decoder's
(R24), BUFMEM (R50) and the rest. The proofs about whole steps go by cases on these effects. -/

namespace Sys2Proof.Machine

/-! ### The effect of a step on each part -/

/-- What a step from `s` to `t` does to the encoder's registers, and where it comes from. -/
inductive EncEffect (s t : State) : Prop where
  /-- Every register of ENC stays as it is. -/
  | kept (eq : t.enc = s.enc)
  /-- ENC's own turn ends the transaction at its capacity (R106). -/
  | truncated (turn : nextTurn s = .agent .enc) (enabled : encEnabled s = true) (full : s.enc.wptr = s.enc.cap)
      (eq : t.enc = finishEnc true s.enc)
  /-- ENC's own turn writes a byte (R106). -/
  | advanced (turn : nextTurn s = .agent .enc) (enabled : encEnabled s = true) (room : s.enc.wptr ≠ s.enc.cap)
      (eq : t.enc = advanceEnc s.plat s.enc) (mem : t.mem = s.mem.write (encAddr s).toNat (wireByte s.enc.rem))
  /-- The host starts a transaction (R184). -/
  | started {rest : List HostAction} (next : HostNext s (.wr .cmd 1#64) rest) (idle : s.enc.busy = false)
      (eq : t.enc = startEnc s.enc)
  /-- The host writes an operand register of the idle encoder (R187). -/
  | operand {r : HReg} {d : Word} {rest : List HostAction} (next : HostNext s (.wr r d) rest)
      (reg : r = .encValue ∨ r = .encBase ∨ r = .encCap) (idle : s.enc.busy = false) (eq : t.enc = (writeReg r d s).enc)
  /-- Reset (R230). -/
  | reset (turn : nextTurn s = .reset) (eq : t.enc = EncRegs.zero)

/-- What a step from `s` to `t` does to the decoder's registers, and where it comes from. -/
inductive DecEffect (s t : State) : Prop where
  /-- Every register of DEC stays as it is. -/
  | kept (eq : t.dec = s.dec)
  /-- DEC's own turn ends the transaction with EOF or OVF, without a read (R141, R142). -/
  | failed (turn : nextTurn s = .agent .dec) (enabled : decEnabled s = true) (e : BitVec 2) (code : e = errEOF ∨ e = errOVF)
      (eq : t.dec = finishDec e 0#64 s.dec)
  /-- DEC's own turn reads a byte (R146). -/
  | advanced (turn : nextTurn s = .agent .dec) (enabled : decEnabled s = true) (more : s.dec.rptr ≠ s.dec.len)
      (fits : s.dec.shift.toNat < 63) (eq : t.dec = advanceDec s.plat (s.mem.read (decAddr s).toNat) s.dec)
  /-- The host starts a transaction (R185). -/
  | started {rest : List HostAction} (next : HostNext s (.wr .cmd 2#64) rest) (idle : s.dec.busy = false)
      (eq : t.dec = startDec s.dec)
  /-- The host writes an operand register of the idle decoder (R187). -/
  | operand {r : HReg} {d : Word} {rest : List HostAction} (next : HostNext s (.wr r d) rest)
      (reg : r = .decBase ∨ r = .decLen) (idle : s.dec.busy = false) (eq : t.dec = (writeReg r d s).dec)
  /-- Reset (R230). -/
  | reset (turn : nextTurn s = .reset) (eq : t.dec = DecRegs.zero)

/-- What a step from `s` to `t` does to BUFMEM, and where it comes from. -/
inductive MemEffect (s t : State) : Prop where
  /-- Every byte stays as it is. -/
  | kept (eq : t.mem = s.mem)
  /-- ENC writes the byte at its pointer (R106). -/
  | encWrite (turn : nextTurn s = .agent .enc) (enabled : encEnabled s = true) (room : s.enc.wptr ≠ s.enc.cap)
      (admitted : admits s.plat (encAddr s) = true) (eq : t.mem = s.mem.write (encAddr s).toNat (wireByte s.enc.rem))
  /-- The host writes one byte (R189). -/
  | hostWrite {a : Addr} {v : Byte} {rest : List HostAction} (next : HostNext s (.mw a v) rest)
      (admitted : admits s.plat a = true) (eq : t.mem = s.mem.write a.toNat v)

/-! ### Registers of an engine after a byte -/

section
variable (p : Platform) (e : EncRegs)

@[simp] theorem advanceEnc_value : (advanceEnc p e).value = e.value := by
  rcases advanceEnc_cases p e with ⟨-, h⟩ | ⟨-, h⟩ <;> rw [h]

@[simp] theorem advanceEnc_base : (advanceEnc p e).base = e.base := by
  rcases advanceEnc_cases p e with ⟨-, h⟩ | ⟨-, h⟩ <;> rw [h]

@[simp] theorem advanceEnc_cap : (advanceEnc p e).cap = e.cap := by
  rcases advanceEnc_cases p e with ⟨-, h⟩ | ⟨-, h⟩ <;> rw [h]

@[simp] theorem advanceEnc_wptr : (advanceEnc p e).wptr = truncTo p.lenW (e.wptr + 1#64) := by
  rcases advanceEnc_cases p e with ⟨-, h⟩ | ⟨-, h⟩ <;> rw [h]

end

section
variable (p : Platform) (b : Byte) (d : DecRegs)

@[simp] theorem advanceDec_base : (advanceDec p b d).base = d.base := by
  rcases advanceDec_cases p b d with ⟨-, h⟩ | ⟨-, h⟩ <;> rw [h]

@[simp] theorem advanceDec_len : (advanceDec p b d).len = d.len := by
  rcases advanceDec_cases p b d with ⟨-, h⟩ | ⟨-, h⟩ <;> rw [h]

end

/-! ### Register writes, engine by engine -/

theorem writeReg_enc_of_ne {r : HReg} (h : ¬ (r = .encValue ∨ r = .encBase ∨ r = .encCap)) (d : Word) (s : State) :
    (writeReg r d s).enc = s.enc := by
  simp only [not_or] at h
  cases r <;> simp_all [writeReg]

theorem writeReg_dec_of_ne {r : HReg} (h : ¬ (r = .decBase ∨ r = .decLen)) (d : Word) (s : State) :
    (writeReg r d s).dec = s.dec := by
  simp only [not_or] at h
  cases r <;> simp_all [writeReg]

/-- Taking the turn and the action off the script changes nothing that an operand write looks at. -/
theorem writeReg_enc_actionTaken (r : HReg) (d : Word) (s : State) (rest : List HostAction) :
    (writeReg r d ((takeTurn s).setScript rest)).enc = (writeReg r d s).enc := by cases r <;> rfl

theorem writeReg_dec_actionTaken (r : HReg) (d : Word) (s : State) (rest : List HostAction) :
    (writeReg r d ((takeTurn s).setScript rest)).dec = (writeReg r d s).dec := by cases r <;> rfl

theorem enc_idle_of_operand_not_held {r : HReg} {d : Word} {s : State} (hr : r = .encValue ∨ r = .encBase ∨ r = .encCap)
    (hh : held (.wr r d) s = false) : s.enc.busy = false := by
  rcases hr with rfl | rfl | rfl <;> exact hh

theorem dec_idle_of_operand_not_held {r : HReg} {d : Word} {s : State} (hr : r = .decBase ∨ r = .decLen)
    (hh : held (.wr r d) s = false) : s.dec.busy = false := by
  rcases hr with rfl | rfl <;> exact hh

/-! ### A host action -/

section
variable {s t u : State} {a : HostAction} {rest : List HostAction}

/-- No host action changes the parameters (log 1). -/
theorem hostAct_plat (h : hostAct a u = .next t) : t.plat = u.plat := by
  rcases hostAct_cases h with ⟨d, i, -, -, hx⟩ | ⟨d, e, -, -, rfl⟩ | ⟨r, d, -, -, rfl⟩ | ⟨r, -, rfl⟩ | ⟨b, v, -, -, rfl⟩ |
    ⟨b, v, -, -, rfl⟩ | ⟨b, -, -, rfl⟩ | ⟨b, -, -, rfl⟩ | ⟨m, v, -, -, rfl⟩ | ⟨m, v, -, -, rfl⟩
  · exact (exec_frame hx).2.2.1
  all_goals simp

/-- Only a register write changes the registers of the block (R183, R189; FAULT apart). -/
theorem hostAct_regs_of_not_wr (h : hostAct a u = .next t) (hw : ∀ r d, a ≠ .wr r d) :
    t.enc = u.enc ∧ t.dec = u.dec ∧ t.cmdIllegal = u.cmdIllegal := by
  rcases hostAct_cases h with ⟨d, i, ha, -⟩ | ⟨d, e, ha, -⟩ | ⟨r, d, ha, -⟩ | ⟨r, -, rfl⟩ | ⟨b, v, -, -, rfl⟩ |
    ⟨b, v, -, -, rfl⟩ | ⟨b, -, -, rfl⟩ | ⟨b, -, -, rfl⟩ | ⟨m, v, -, -, rfl⟩ | ⟨m, v, -, -, rfl⟩
  · exact absurd ha (hw _ _)
  · exact absurd ha (hw _ _)
  · exact absurd ha (hw _ _)
  all_goals exact ⟨rfl, rfl, rfl⟩

/-- Only a write to CMD changes CMD_ILLEGAL (R25). -/
theorem hostAct_cmdIllegal (h : hostAct a u = .next t) (hc : ∀ d, a ≠ .wr .cmd d) : t.cmdIllegal = u.cmdIllegal := by
  cases a with
  | wr r d =>
    rcases hostWrite_cases h with ⟨rfl, -⟩ | ⟨rfl, -⟩ | ⟨-, rfl⟩
    · exact absurd rfl (hc d)
    · exact absurd rfl (hc d)
    · exact writeReg_cmdIllegal ..
  | _ => exact (hostAct_regs_of_not_wr h nofun).2.2

theorem encEffect_of_hostAct (hn : HostNext s a rest) (hh : held a s = false)
    (h : hostAct a ((takeTurn s).setScript rest) = .next t) : EncEffect s t := by
  cases a with
  | wr r d =>
    rcases hostWrite_cases h with ⟨rfl, i, hd, hx⟩ | ⟨-, -, rfl⟩ | ⟨-, rfl⟩
    · rcases exec_cases hx with ⟨-, rfl⟩ | ⟨-, -, rfl⟩ | ⟨rfl, hb, rfl⟩ | ⟨-, -, rfl⟩ | ⟨-, -, rfl⟩
      case inr.inr.inl =>
        obtain rfl : d = 1#64 := eq_encode_of_decode hd
        exact .started hn hb rfl
      all_goals exact .kept rfl
    · exact .kept rfl
    · by_cases hr : r = .encValue ∨ r = .encBase ∨ r = .encCap
      · exact .operand hn hr (enc_idle_of_operand_not_held hr hh) (writeReg_enc_actionTaken r d s rest)
      · exact .kept (writeReg_enc_of_ne hr d _)
  | _ => exact .kept (hostAct_regs_of_not_wr h nofun).1

theorem decEffect_of_hostAct (hn : HostNext s a rest) (hh : held a s = false)
    (h : hostAct a ((takeTurn s).setScript rest) = .next t) : DecEffect s t := by
  cases a with
  | wr r d =>
    rcases hostWrite_cases h with ⟨rfl, i, hd, hx⟩ | ⟨-, -, rfl⟩ | ⟨-, rfl⟩
    · rcases exec_cases hx with ⟨-, rfl⟩ | ⟨-, -, rfl⟩ | ⟨-, -, rfl⟩ | ⟨-, -, rfl⟩ | ⟨rfl, hb, rfl⟩
      case inr.inr.inr.inr =>
        obtain rfl : d = 2#64 := eq_encode_of_decode hd
        exact .started hn hb rfl
      all_goals exact .kept rfl
    · exact .kept rfl
    · by_cases hr : r = .decBase ∨ r = .decLen
      · exact .operand hn hr (dec_idle_of_operand_not_held hr hh) (writeReg_dec_actionTaken r d s rest)
      · exact .kept (writeReg_dec_of_ne hr d _)
  | _ => exact .kept (hostAct_regs_of_not_wr h nofun).2.1

theorem memEffect_of_hostAct (hn : HostNext s a rest) (h : hostAct a ((takeTurn s).setScript rest) = .next t) :
    MemEffect s t := by
  rcases hostAct_cases h with ⟨d, i, -, -, hx⟩ | ⟨d, e, -, -, rfl⟩ | ⟨r, d, -, -, rfl⟩ | ⟨r, -, rfl⟩ | ⟨b, v, rfl, ha, rfl⟩ |
    ⟨b, v, -, -, rfl⟩ | ⟨b, -, -, rfl⟩ | ⟨b, -, -, rfl⟩ | ⟨m, v, -, -, rfl⟩ | ⟨m, v, -, -, rfl⟩
  · exact .kept (exec_frame hx).2.1
  · exact .kept rfl
  · exact .kept (writeReg_mem ..)
  · exact .kept rfl
  · exact .hostWrite hn ha rfl
  all_goals exact .kept rfl

end

/-! ### A step -/

section
variable {s t : State}

theorem encEffect_of_step (h : step s = .next t) : EncEffect s t := by
  rcases step_cases_full h with ⟨-, -, rfl⟩ | ⟨a, rest, -, -, rfl⟩ | ⟨a, rest, hn, hh, hx⟩ | ⟨ht, rfl⟩ | ⟨-, rfl⟩ | ⟨ht, rfl⟩
  · exact .kept rfl
  · exact .kept rfl
  · exact encEffect_of_hostAct hn hh hx
  · rcases encTurn_cases (takeTurn s) with ⟨-, e⟩ | ⟨he, hc, e⟩ | ⟨-, -, -, e⟩ | ⟨he, hc, -, e⟩ <;> rw [e]
    · exact .kept rfl
    · exact .truncated ht he hc rfl
    · exact .kept rfl
    · exact .advanced ht he hc rfl rfl
  · exact .kept (decTurn_frame _).1
  · exact .reset ht rfl

theorem decEffect_of_step (h : step s = .next t) : DecEffect s t := by
  rcases step_cases_full h with ⟨-, -, rfl⟩ | ⟨a, rest, -, -, rfl⟩ | ⟨a, rest, hn, hh, hx⟩ | ⟨-, rfl⟩ | ⟨ht, rfl⟩ | ⟨ht, rfl⟩
  · exact .kept rfl
  · exact .kept rfl
  · exact decEffect_of_hostAct hn hh hx
  · exact .kept (encTurn_frame _).1
  · rcases decTurn_cases (takeTurn s) with ⟨-, e⟩ | ⟨he, -, e⟩ | ⟨he, -, -, e⟩ | ⟨-, -, -, -, e⟩ | ⟨he, hc, hs, -, e⟩ <;> rw [e]
    · exact .kept rfl
    · exact .failed ht he errEOF (.inl rfl) rfl
    · exact .failed ht he errOVF (.inr rfl) rfl
    · exact .kept rfl
    · exact .advanced ht he hc hs rfl
  · exact .reset ht rfl

theorem memEffect_of_step (h : step s = .next t) : MemEffect s t := by
  rcases step_cases_full h with ⟨-, -, rfl⟩ | ⟨a, rest, -, -, rfl⟩ | ⟨a, rest, hn, -, hx⟩ | ⟨ht, rfl⟩ | ⟨-, rfl⟩ | ⟨-, rfl⟩
  · exact .kept rfl
  · exact .kept rfl
  · exact memEffect_of_hostAct hn hx
  · rcases encTurn_cases (takeTurn s) with ⟨-, e⟩ | ⟨-, -, e⟩ | ⟨-, -, -, e⟩ | ⟨he, hc, ha, e⟩ <;> rw [e]
    · exact .kept rfl
    · exact .kept rfl
    · exact .kept rfl
    · exact .encWrite ht he hc ha rfl
  · exact .kept (decTurn_frame _).2.2.1
  · exact .kept rfl

/-- No step changes the parameters (log 1). -/
theorem step_plat (h : step s = .next t) : t.plat = s.plat := by
  rcases step_cases_full h with ⟨-, -, rfl⟩ | ⟨a, rest, -, -, rfl⟩ | ⟨a, rest, -, -, hx⟩ | ⟨-, rfl⟩ | ⟨-, rfl⟩ | ⟨-, rfl⟩
  · rfl
  · rfl
  · simpa using hostAct_plat hx
  · exact (encTurn_frame _).2.2.1
  · exact (decTurn_frame _).2.2.2.1
  · rfl

/-- Only a write to CMD or a reset changes CMD_ILLEGAL (R25). -/
theorem step_cmdIllegal (h : step s = .next t) (hr : nextTurn s ≠ .reset) (hc : ∀ d rest, ¬ HostNext s (.wr .cmd d) rest) :
    t.cmdIllegal = s.cmdIllegal := by
  rcases step_cases_full h with ⟨-, -, rfl⟩ | ⟨a, rest, -, -, rfl⟩ | ⟨a, rest, hn, -, hx⟩ | ⟨-, rfl⟩ | ⟨-, rfl⟩ | ⟨ht, -⟩
  · rfl
  · rfl
  · simpa using hostAct_cmdIllegal hx fun d e => hc d rest (e ▸ hn)
  · exact (encTurn_frame _).2.1
  · exact (decTurn_frame _).2.1
  · exact absurd ht hr

/-- Only the host's turn adds to the read results (log 4, log 9). -/
theorem step_reads (h : step s = .next t) (hn : nextTurn s ≠ .agent .host) : t.reads = s.reads := by
  rcases step_cases h with ⟨ht, -⟩ | ⟨-, rfl⟩ | ⟨-, rfl⟩ | ⟨-, rfl⟩
  · exact absurd ht hn
  · exact (encTurn_frame _).2.2.2.2.1
  · exact (decTurn_frame _).2.2.2.2.2.1
  · rfl

end

end Sys2Proof.Machine
end

section
/-! SUPPORT. Every step keeps the machine invariant (10_state.md R27, R28, R33; 30_encoding.md R79; 41_decoder.md R148, R153),
one lemma for each effect that a step can have on a part of the block. -/

namespace Sys2Proof.Machine

/-! ### The encoder -/

section
variable {p : Platform} {e : EncRegs}

theorem EncInv.zero (p : Platform) : EncInv p EncRegs.zero := by
  constructor <;> simp [EncRegs.zero]

/-- A busy encoder has written at most nine bytes: after ten, nothing of the value remains (R28, R101). -/
theorem EncInv.wptr_le_nine (h : EncInv p e) (hb : e.busy = true) : e.wptr.toNat ≤ 9 := by
  by_contra hlt
  have h10 : e.wptr.toNat = 10 := by have := h.wptr_le; omega
  have hrem : e.rem = 0#64 := by
    rw [h.busy_rem hb, shift_eq_zero_iff e.value (by omega), h10]
    exact encLen_le_ten e.value
  exact h.busy_more hb (fun h0 => by simp [h0] at h10) hrem

/-- The pointer of a busy encoder counts up by one, at any legal LEN_W (R28). -/
theorem EncInv.wptr_succ (h : EncInv p e) (hp : p.wf = true) (hb : e.busy = true) :
    (truncTo p.lenW (e.wptr + 1#64)).toNat = e.wptr.toNat + 1 := by
  obtain ⟨-, hl, -⟩ := Platform.wf_iff.1 hp
  have := h.wptr_le_nine hb
  exact truncTo_succ_toNat hl (by omega)

/-- A busy encoder that is not at its capacity is below it. -/
theorem EncInv.wptr_lt_cap (h : EncInv p e) (hb : e.busy = true) (hc : e.wptr ≠ e.cap) : e.wptr.toNat < e.cap.toNat :=
  lt_of_le_of_ne (h.busy_cap hb) fun he => hc (BitVec.eq_of_toNat_eq he)

theorem EncInv.truncated (h : EncInv p e) : EncInv p (finishEnc true e) :=
  { h with
    busy_not_done := nofun
    trunc_done := fun _ => rfl
    never_started := nofun
    busy_rem := nofun
    busy_cap := nofun
    busy_more := nofun
    complete_rem := nofun }

theorem EncInv.advanced (h : EncInv p e) (hp : p.wf = true) (hb : e.busy = true) (hc : e.wptr ≠ e.cap) :
    EncInv p (advanceEnc p e) := by
  have hsucc := h.wptr_succ hp hb
  have hnine := h.wptr_le_nine hb
  have hcap := h.wptr_lt_cap hb hc
  rcases advanceEnc_cases p e with ⟨-, eq⟩ | ⟨hmore, eq⟩ <;> rw [eq]
  · exact
      { h with
        wptr_le := by simp only [hsucc]; omega
        busy_not_done := nofun
        trunc_done := nofun
        never_started := nofun
        busy_rem := nofun
        busy_cap := nofun
        busy_more := nofun
        complete_rem := fun _ _ => rfl }
  · have hdone : e.done = false := h.busy_not_done hb
    exact
      { h with
        wptr_le := by simp only [hsucc]; omega
        never_started := fun hi => absurd (hi.symm.trans hb) Bool.false_ne_true
        busy_rem := fun _ => by simp only [hsucc]; exact nextRem_of_shift (h.busy_rem hb)
        busy_cap := fun _ => by simp only [hsucc]; omega
        busy_more := fun _ _ => hmore
        complete_rem := fun hd => absurd hd (by simp [hdone]) }

theorem EncInv.started (h : EncInv p e) : EncInv p (startEnc e) where
  base_fits := h.base_fits
  cap_fits := h.cap_fits
  wptr_le := by simp [startEnc]
  busy_not_done := fun _ => rfl
  trunc_done := nofun
  never_started := nofun
  busy_rem := fun _ => by simp [startEnc]
  busy_cap := fun _ => by simp [startEnc]
  busy_more := fun _ h0 => absurd rfl h0
  complete_rem := nofun

/-- New operands that fit their registers, in an idle encoder. -/
theorem EncInv.withOperands (h : EncInv p e) (hi : e.busy = false) (v : Word) {b : Addr} {c : Word}
    (hb : b.toNat < 2 ^ p.addrW) (hc : c.toNat < 2 ^ p.lenW) :
    EncInv p { e with value := v, base := b, cap := c } :=
  { h with
    base_fits := hb
    cap_fits := hc
    busy_rem := fun hx => absurd hx (by simp [hi])
    busy_cap := fun hx => absurd hx (by simp [hi]) }

end

theorem EncInv.operandWritten {s : State} (h : EncInv s.plat s.enc) (hi : s.enc.busy = false) (r : HReg) (d : Word) :
    EncInv s.plat (writeReg r d s).enc := by
  cases r with
  | encValue => exact h.withOperands hi d h.base_fits h.cap_fits
  | encBase => exact h.withOperands hi s.enc.value (truncTo_lt _ d) h.cap_fits
  | encCap => exact h.withOperands hi s.enc.value h.base_fits (truncTo_lt _ d)
  | _ => exact h

theorem EncInv.step {s t : State} (h : EncInv s.plat s.enc) (hp : s.plat.wf = true) (hs : step s = .next t) :
    EncInv s.plat t.enc := by
  cases encEffect_of_step hs with
  | kept eq => rwa [eq]
  | truncated _ _ _ eq => rw [eq]; exact h.truncated
  | advanced _ enabled room eq _ => rw [eq]; exact h.advanced hp (encEnabled_iff.1 enabled).1 room
  | started _ _ eq => rw [eq]; exact h.started
  | operand _ _ idle eq => rw [eq]; exact h.operandWritten idle _ _
  | reset _ eq => rw [eq]; exact EncInv.zero _

/-! ### The decoder -/

section
variable {p : Platform} {d : DecRegs}

theorem DecInv.zero (p : Platform) : DecInv p DecRegs.zero := by
  constructor <;> simp [DecRegs.zero, errOK]

/-- DEC reads with its pointer at 8 or less: at 9 its shift is 63, which is OVF (R142, R148). -/
theorem DecInv.rptr_le_eight (h : DecInv p d) (hb : d.busy = true) (hs : d.shift.toNat < 63) : d.rptr.toNat ≤ 8 := by
  have := h.busy_shift hb
  omega

/-- The pointer of a decoder that reads counts up by one, at any legal LEN_W (R28). -/
theorem DecInv.rptr_succ (h : DecInv p d) (hp : p.wf = true) :
    (truncTo p.lenW (d.rptr + 1#64)).toNat = d.rptr.toNat + 1 := by
  obtain ⟨-, hl, -⟩ := Platform.wf_iff.1 hp
  have := h.rptr_le
  exact truncTo_succ_toNat hl (by omega)

theorem DecInv.rptr_lt_len (h : DecInv p d) (hb : d.busy = true) (hl : d.rptr ≠ d.len) : d.rptr.toNat < d.len.toNat :=
  lt_of_le_of_ne (h.busy_len hb) fun he => hl (BitVec.eq_of_toNat_eq he)

/-- The accumulator after the next read holds one chunk more (R28, R144). -/
theorem DecInv.reassemble_lt (h : DecInv p d) (hb : d.busy = true) (hs : d.shift.toNat < 63) (b : Byte) :
    (reassemble d.acc d.shift b).toNat < 2 ^ (7 * (d.rptr.toNat + 1)) := by
  rw [reassemble, h.busy_shift hb]
  exact (add_chunk_toNat (h.rptr_le_eight hb hs) (h.busy_acc hb)).2

/-- The shift after a continuation byte is that of the next pointer, and does not wrap (R148). -/
theorem DecInv.shift_succ (h : DecInv p d) (hb : d.busy = true) (hs : d.shift.toNat < 63) :
    (d.shift + 7#6).toNat = 7 * (d.rptr.toNat + 1) := by
  have := h.busy_shift hb
  have := h.rptr_le_eight hb hs
  rw [BitVec.toNat_add, BitVec.toNat_ofNat]
  omega

theorem DecInv.failed (h : DecInv p d) {e : BitVec 2} (he : e = errEOF ∨ e = errOVF) : DecInv p (finishDec e 0#64 d) :=
  { h with
    busy_not_done := nofun
    err_done := fun _ => ⟨rfl, rfl⟩
    err_produced := by rcases he with rfl | rfl <;> simp [finishDec, errEOF, errOVF]
    result_lt := by simp [finishDec]
    never_started := nofun
    busy_shift := nofun
    busy_len := nofun
    busy_acc := nofun
    busy_result := nofun }

theorem DecInv.advanced (h : DecInv p d) (hp : p.wf = true) (hb : d.busy = true) (hl : d.rptr ≠ d.len)
    (hs : d.shift.toNat < 63) (b : Byte) : DecInv p (advanceDec p b d) := by
  have hsucc := h.rptr_succ hp
  have hread := h.rptr_le_eight hb hs
  have hlen := h.rptr_lt_len hb hl
  have hacc := h.reassemble_lt hb hs b
  rcases advanceDec_cases p b d with ⟨-, eq⟩ | ⟨-, eq⟩ <;> rw [eq]
  · have hresult : 2 ^ (7 * (d.rptr.toNat + 1)) ≤ 2 ^ 63 := Nat.pow_le_pow_right (by omega) (by omega)
    exact
      { h with
        rptr_le := by simp only [hsucc]; omega
        busy_not_done := nofun
        err_done := fun hne => absurd rfl hne
        err_produced := by simp [errOK]
        result_lt := by simp only; omega
        never_started := nofun
        busy_shift := nofun
        busy_len := nofun
        busy_acc := nofun
        busy_result := nofun }
  · have hshift := h.shift_succ hb hs
    exact
      { h with
        rptr_le := by simp only [hsucc]; omega
        shift_step := by simp only [hshift]; omega
        never_started := fun hi => absurd (hi.symm.trans hb) Bool.false_ne_true
        busy_shift := fun _ => by simp only [hsucc, hshift]
        busy_len := fun _ => by simp only [hsucc]; omega
        busy_acc := fun _ => by simpa only [hsucc] using hacc }

theorem DecInv.started (h : DecInv p d) : DecInv p (startDec d) where
  base_fits := h.base_fits
  len_fits := h.len_fits
  rptr_le := by simp [startDec]
  shift_step := by simp [startDec]
  busy_not_done := fun _ => rfl
  err_done := fun hne => absurd rfl hne
  err_produced := by simp [startDec, errOK]
  result_lt := by simp [startDec]
  never_started := nofun
  busy_shift := fun _ => by simp [startDec]
  busy_len := fun _ => by simp [startDec]
  busy_acc := fun _ => by simp [startDec]
  busy_result := fun _ => rfl

/-- New operands that fit their registers, in an idle decoder. -/
theorem DecInv.withOperands (h : DecInv p d) (hi : d.busy = false) {b : Addr} {l : Word}
    (hb : b.toNat < 2 ^ p.addrW) (hl : l.toNat < 2 ^ p.lenW) : DecInv p { d with base := b, len := l } :=
  { h with
    base_fits := hb
    len_fits := hl
    busy_len := fun hx => absurd hx (by simp [hi]) }

end

theorem DecInv.operandWritten {s : State} (h : DecInv s.plat s.dec) (hi : s.dec.busy = false) (r : HReg) (d : Word) :
    DecInv s.plat (writeReg r d s).dec := by
  cases r with
  | decBase => exact h.withOperands hi (truncTo_lt _ d) h.len_fits
  | decLen => exact h.withOperands hi h.base_fits (truncTo_lt _ d)
  | _ => exact h

theorem DecInv.step {s t : State} (h : DecInv s.plat s.dec) (hp : s.plat.wf = true) (hs : step s = .next t) :
    DecInv s.plat t.dec := by
  cases decEffect_of_step hs with
  | kept eq => rwa [eq]
  | failed _ _ e code eq => rw [eq]; exact h.failed code
  | advanced _ enabled more fits eq => rw [eq]; exact h.advanced hp (decEnabled_iff.1 enabled).1 more fits _
  | started _ _ eq => rw [eq]; exact h.started
  | operand _ _ idle eq => rw [eq]; exact h.operandWritten idle _ _
  | reset _ eq => rw [eq]; exact DecInv.zero _

/-! ### The machine -/

theorem MemInv.step {s t : State} (h : MemInv s.plat s.mem) (hs : step s = .next t) : MemInv s.plat t.mem := by
  cases memEffect_of_step hs with
  | kept eq => rwa [eq]
  | encWrite _ _ _ admitted eq => rw [eq]; exact h.write admitted _
  | hostWrite _ admitted eq => rw [eq]; exact h.write admitted _

theorem MachineInv.step {s t : State} (h : MachineInv s) (hs : step s = .next t) : MachineInv t := by
  constructor <;> rw [step_plat hs]
  · exact h.plat
  · exact h.enc.step h.plat hs
  · exact h.dec.step h.plat hs
  · exact h.mem.step hs

/-- Settles O36: each part of the invariant is kept by each effect a step can have on that part. -/
theorem everyStepKeepsInvariant : Obligations.EveryStepKeepsInvariant := by
  unfold Obligations.EveryStepKeepsInvariant
  exact fun _ _ h hs => h.step hs

end Sys2Proof.Machine
end

section
/-! SUPPORT. Without a race (70_reset_and_hazards.md R242), the bytes that a running ENC has written and those that a running
DEC has read stay as they are (10_state.md R28; 20_memory.md R58, R66; 40_encoder.md R108). -/

namespace Sys2Proof.Machine

/-! ### Bytes of a buffer, before and after a step -/

section
variable {s t : State}

theorem byteAt_congr (hp : t.plat = s.plat) (hm : t.mem = s.mem) : byteAt t = byteAt s := by
  funext base k
  simp [byteAt, hp, hm]

theorem byteAt_of_write_other {a : Addr} {v : Byte} {base : Addr} {k : Nat} (hp : t.plat = s.plat)
    (hm : t.mem = s.mem.write a.toNat v) (ha : (effAddr s.plat base (BitVec.ofNat 64 k)).toNat ≠ a.toNat) :
    byteAt t base k = byteAt s base k := by
  rw [byteAt, byteAt, hp, hm, Memory.read_write_other _ _ ha]

theorem byteAt_of_write_same {a : Addr} {v : Byte} {base : Addr} {k : Nat} (hw : s.mem.wf = true) (hp : t.plat = s.plat)
    (hm : t.mem = s.mem.write a.toNat v) (ha : effAddr s.plat base (BitVec.ofNat 64 k) = a) : byteAt t base k = v := by
  rw [byteAt, hp, hm, ha, Memory.read_write_same hw]

theorem encAddr_eq_offset (s : State) :
    encAddr s = effAddr s.plat s.enc.base (BitVec.ofNat 64 s.enc.wptr.toNat) := by simp [encAddr]

theorem byteAt_rptr (s : State) : byteAt s s.dec.base s.dec.rptr.toNat = s.mem.read (decAddr s).toNat := by
  simp [byteAt, decAddr]

/-- The byte that ENC is about to write lies in its span (R28, R242). -/
theorem inEncSpan_encAddr (h : EncInv s.plat s.enc) (hb : s.enc.busy = true) (hc : s.enc.wptr ≠ s.enc.cap) :
    inEncSpan s (encAddr s) = true := by
  have hcap := h.wptr_lt_cap hb hc
  have hnine := h.wptr_le_nine hb
  simp only [inEncSpan, List.any_eq_true, List.mem_range, beq_iff_eq]
  exact ⟨s.enc.wptr.toNat, by omega, (encAddr_eq_offset s).symm⟩

theorem step_mem_of_dec_turn (hs : step s = .next t) (ht : nextTurn s = .agent .dec) : t.mem = s.mem := by
  cases memEffect_of_step hs with
  | kept eq => exact eq
  | encWrite turn => exact absurd (turn.symm.trans ht) (by decide)
  | hostWrite next => exact absurd (next.1.symm.trans ht) (by decide)

/-- The bytes that a running ENC has written, after a step that is not its own. -/
theorem written_bytes_kept (h : EncInv s.plat s.enc) (hb : s.enc.busy = true) (hk : EncSpanKept s) (hs : step s = .next t)
    (ht : nextTurn s ≠ .agent .enc) {k : Nat} (hlt : k < s.enc.wptr.toNat) :
    byteAt t s.enc.base k = byteAt s s.enc.base k := by
  cases memEffect_of_step hs with
  | kept eq => rw [byteAt_congr (step_plat hs) eq]
  | encWrite turn => exact absurd turn ht
  | hostWrite next _ eq =>
    have hcap := h.busy_cap hb
    have hnine := h.wptr_le_nine hb
    exact byteAt_of_write_other (step_plat hs) eq (ne_of_not_inEncSpan (hk _ _ _ next) (by omega))

/-- The bytes that a running DEC has read, after any step that keeps out of its span. -/
theorem read_bytes_kept (h : DecInv s.plat s.dec) (hb : s.dec.busy = true) (hk : DecSpanKept s) (hs : step s = .next t)
    {k : Nat} (hlt : k < s.dec.rptr.toNat) : byteAt t s.dec.base k = byteAt s s.dec.base k := by
  have hlen := h.busy_len hb
  have hnine := h.rptr_le
  cases memEffect_of_step hs with
  | kept eq => rw [byteAt_congr (step_plat hs) eq]
  | encWrite turn enabled room _ eq =>
    exact byteAt_of_write_other (step_plat hs) eq (ne_of_not_inDecSpan (hk.2 turn enabled room) (by omega))
  | hostWrite next _ eq =>
    exact byteAt_of_write_other (step_plat hs) eq (ne_of_not_inDecSpan (hk.1 _ _ _ next) (by omega))

end

/-! ### What the engines have done so far -/

section
variable {s t : State}

/-- ENC's own write adds the next byte of enc(ENC_VALUE), and overwrites only offsets that share its address. -/
theorem WrittenPrefix.advanced (h : WrittenPrefix s) (hi : MachineInv s) (hb : s.enc.busy = true) (hp : t.plat = s.plat)
    (eq : t.enc = advanceEnc s.plat s.enc) (hm : t.mem = s.mem.write (encAddr s).toNat (wireByte s.enc.rem)) :
    WrittenPrefix t := by
  intro _ k hk hlast
  have hsucc := hi.enc.wptr_succ hi.plat hb
  rw [eq, advanceEnc_wptr, hsucc] at hk hlast
  rw [advanceEnc_base, hp] at hlast
  rw [eq, advanceEnc_base, advanceEnc_value]
  rcases Nat.lt_succ_iff_lt_or_eq.1 hk with hlt | rfl
  · have hne : (effAddr s.plat s.enc.base (BitVec.ofNat 64 k)).toNat ≠ (encAddr s).toNat := by
      rw [encAddr_eq_offset]
      exact fun he => hlast _ hlt (Nat.lt_succ_self _) (BitVec.eq_of_toNat_eq he.symm)
    rw [byteAt_of_write_other hp hm hne]
    exact h hb k hlt fun j hj hjw => hlast j hj (by omega)
  · rw [byteAt_of_write_same hi.mem.canonical hp hm (encAddr_eq_offset s).symm]
    exact wireByte_eq_encByte (hi.enc.busy_rem hb)

/-- A step that leaves ENC's registers alone keeps what ENC has written. -/
theorem WrittenPrefix.kept (h : WrittenPrefix s) (hp : t.plat = s.plat) (eq : t.enc = s.enc)
    (hm : s.enc.busy = true → ∀ k, k < s.enc.wptr.toNat → byteAt t s.enc.base k = byteAt s s.enc.base k) :
    WrittenPrefix t := by
  unfold WrittenPrefix
  rw [eq, hp]
  intro hb k hk hlast
  rw [hm hb k hk]
  exact h hb k hk hlast

theorem WrittenPrefix.step (h : WrittenPrefix s) (hi : MachineInv s) (hk : s.enc.busy = true → EncSpanKept s)
    (hs : step s = .next t) : WrittenPrefix t := by
  have hp := step_plat hs
  by_cases ht : nextTurn s = .agent .enc
  · obtain rfl : encTurn (takeTurn s) = t := by simpa [step_of_enc ht] using hs
    rcases encTurn_cases (takeTurn s) with ⟨-, e⟩ | ⟨-, -, e⟩ | ⟨-, -, -, e⟩ | ⟨he, -, -, e⟩ <;> rw [e]
    · exact h.kept rfl rfl fun _ _ _ => rfl
    · exact nofun
    · exact h.kept rfl rfl fun _ _ _ => rfl
    · exact h.advanced hi (encEnabled_iff.1 he).1 rfl rfl rfl
  · cases encEffect_of_step hs with
    | kept eq => exact h.kept hp eq fun hb k hlt => written_bytes_kept hi.enc hb (hk hb) hs ht hlt
    | truncated turn => exact absurd turn ht
    | advanced turn => exact absurd turn ht
    | started _ _ eq => intro _ k hlt; simp [eq, startEnc] at hlt
    | operand _ reg idle eq => intro hb; rw [eq, writeReg_enc_busy, idle] at hb; exact nomatch hb
    | reset _ eq => intro hb; rw [eq] at hb; exact nomatch hb

/-- DEC's own read adds the chunk of the byte it read, a continuation byte while DEC stays busy. -/
theorem ReadPrefix.advanced (h : ReadPrefix s) (hi : MachineInv s) (hb : s.dec.busy = true) (hbytes : byteAt t = byteAt s)
    (eq : t.dec = advanceDec s.plat (s.mem.read (decAddr s).toNat) s.dec) : ReadPrefix t := by
  obtain ⟨hacc, hmore⟩ := h hb
  have hsucc := hi.dec.rptr_succ hi.plat
  unfold ReadPrefix
  rw [hbytes, eq, ← byteAt_rptr]
  rcases advanceDec_cases s.plat (byteAt s s.dec.base s.dec.rptr.toNat) s.dec with ⟨-, e⟩ | ⟨hc, e⟩ <;> rw [e]
  · exact nofun
  · intro _
    dsimp only
    rw [hsucc]
    constructor
    · rw [chunkSum, ← hacc, reassemble, hi.dec.busy_shift hb]
    · intro k hk
      rcases Nat.lt_succ_iff_lt_or_eq.1 hk with hlt | rfl
      · exact hmore k hlt
      · exact hc

theorem ReadPrefix.kept (h : ReadPrefix s) (eq : t.dec = s.dec)
    (hm : s.dec.busy = true → ∀ k, k < s.dec.rptr.toNat → byteAt t s.dec.base k = byteAt s s.dec.base k) :
    ReadPrefix t := by
  unfold ReadPrefix
  rw [eq]
  intro hb
  obtain ⟨hacc, hmore⟩ := h hb
  refine ⟨hacc.trans (chunkSum_congr fun k hk => (hm hb k hk).symm), fun k hk => ?_⟩
  rw [hm hb k hk]
  exact hmore k hk

theorem ReadPrefix.step (h : ReadPrefix s) (hi : MachineInv s) (hk : s.dec.busy = true → DecSpanKept s)
    (hs : step s = .next t) : ReadPrefix t := by
  cases decEffect_of_step hs with
  | kept eq => exact h.kept eq fun hb k hlt => read_bytes_kept hi.dec hb (hk hb) hs hlt
  | failed _ _ _ _ eq => intro hb; rw [eq] at hb; exact nomatch hb
  | advanced turn enabled _ _ eq =>
    exact h.advanced hi (decEnabled_iff.1 enabled).1 (byteAt_congr (step_plat hs) (step_mem_of_dec_turn hs turn)) eq
  | started _ _ eq => intro _; simp [eq, startDec, chunkSum]
  | operand _ _ idle eq => intro hb; rw [eq, writeReg_dec_busy, idle] at hb; exact nomatch hb
  | reset _ eq => intro hb; rw [eq] at hb; exact nomatch hb

/-! ### The host's duty keeps both spans -/

theorem RaceFree.encSpanKept (h : RaceFree s) (hb : s.enc.busy = true) : EncSpanKept s := by
  intro a v rest hn
  have hr := h.2 _ _ hn
  simp only [HostAction.respectsSpans, hb, Bool.true_and, Bool.and_eq_true, Bool.not_eq_true'] at hr
  exact hr.1

theorem RaceFree.decSpanKept (h : RaceFree s) (hi : EncInv s.plat s.enc) (hb : s.dec.busy = true) : DecSpanKept s := by
  constructor
  · intro a v rest hn
    have hr := h.2 _ _ hn
    simp only [HostAction.respectsSpans, hb, Bool.true_and, Bool.and_eq_true, Bool.not_eq_true'] at hr
    exact hr.2
  · intro _ he hc
    have hbe := (encEnabled_iff.1 he).1
    exact h.1 hbe hb _ (inEncSpan_encAddr hi hbe hc)

end

/-- Settles O37: a step changes the bytes below a pointer only by writing into the span, and the engine's own step adds one byte
more to what it has done. -/
theorem raceFreeStepsKeepPrefixes : Obligations.RaceFreeStepsKeepPrefixes := by
  unfold Obligations.RaceFreeStepsKeepPrefixes
  exact ⟨fun s t hi hk hs h => h.step hi hk hs, fun s t hi hk hs h => h.step hi hk hs,
    fun s hi hr => ⟨hr.encSpanKept, hr.decSpanKept hi.enc⟩⟩

end Sys2Proof.Machine
end

section
/-! SUPPORT. Which steps may change which part of the state, and the independence of the two engines (10_state.md R20 to R28,
R33; 42_host_commands.md R190; 70_reset_and_hazards.md R245). -/

namespace Sys2Proof.Machine

/-! ### Who may write what -/

section
variable {s t : State}

theorem enc_writer_of_ne (hs : step s = .next t) (hne : t.enc ≠ s.enc) :
    nextTurn s = .agent .enc ∨ nextTurn s = .reset ∨
      ∃ r d rest, HostNext s (.wr r d) rest ∧ (r = .cmd ∨ r = .encValue ∨ r = .encBase ∨ r = .encCap) := by
  cases encEffect_of_step hs with
  | kept eq => exact absurd eq hne
  | truncated turn => exact .inl turn
  | advanced turn => exact .inl turn
  | started next => exact .inr (.inr ⟨_, _, _, next, .inl rfl⟩)
  | operand next reg => exact .inr (.inr ⟨_, _, _, next, .inr reg⟩)
  | reset turn => exact .inr (.inl turn)

theorem dec_writer_of_ne (hs : step s = .next t) (hne : t.dec ≠ s.dec) :
    nextTurn s = .agent .dec ∨ nextTurn s = .reset ∨
      ∃ r d rest, HostNext s (.wr r d) rest ∧ (r = .cmd ∨ r = .decBase ∨ r = .decLen) := by
  cases decEffect_of_step hs with
  | kept eq => exact absurd eq hne
  | failed turn => exact .inl turn
  | advanced turn => exact .inl turn
  | started next => exact .inr (.inr ⟨_, _, _, next, .inl rfl⟩)
  | operand next reg => exact .inr (.inr ⟨_, _, _, next, .inr reg⟩)
  | reset turn => exact .inr (.inl turn)

theorem mem_writer_of_ne (hs : step s = .next t) (hne : t.mem ≠ s.mem) :
    nextTurn s = .agent .enc ∨ ∃ a v rest, HostNext s (.mw a v) rest := by
  cases memEffect_of_step hs with
  | kept eq => exact absurd eq hne
  | encWrite turn => exact .inl turn
  | hostWrite next => exact .inr ⟨_, _, _, next⟩

theorem cmdIllegal_writer_of_ne (hs : step s = .next t) (hne : t.cmdIllegal ≠ s.cmdIllegal) :
    nextTurn s = .reset ∨ ∃ d rest, HostNext s (.wr .cmd d) rest := by
  by_contra hno
  simp only [not_or, not_exists] at hno
  exact hne (step_cmdIllegal hs hno.1 hno.2)

end

/-- Settles O27: what changes a part of the state is read off the effects a step can have on it. -/
theorem whoMayWriteWhat : Obligations.WhoMayWriteWhat := by
  unfold Obligations.WhoMayWriteWhat
  intro s t hs
  exact ⟨step_plat hs, mem_writer_of_ne hs, cmdIllegal_writer_of_ne hs, enc_writer_of_ne hs, dec_writer_of_ne hs,
    fun hne => by_contra fun hn => hne (step_reads hs hn)⟩

/-! ### Where a transaction starts and ends -/

theorem advanceEnc_done_of_idle (p : Platform) {e : EncRegs} (hb : e.busy = true) (hi : (advanceEnc p e).busy = false) :
    (advanceEnc p e).done = true := by
  rcases advanceEnc_cases p e with ⟨-, h⟩ | ⟨-, h⟩ <;> rw [h] at hi ⊢
  exact absurd (hb.symm.trans hi) (by decide)

theorem advanceDec_done_of_idle (p : Platform) (b : Byte) {d : DecRegs} (hb : d.busy = true)
    (hi : (advanceDec p b d).busy = false) : (advanceDec p b d).done = true := by
  rcases advanceDec_cases p b d with ⟨-, h⟩ | ⟨-, h⟩ <;> rw [h] at hi ⊢
  exact absurd (hb.symm.trans hi) (by decide)

section
variable {s t : State}

theorem enc_start (hs : step s = .next t) (hi : s.enc.busy = false) (hb : t.enc.busy = true) :
    ∃ rest, HostNext s (.wr .cmd 1#64) rest := by
  cases encEffect_of_step hs with
  | kept eq => rw [eq, hi] at hb; exact nomatch hb
  | truncated _ _ _ eq => rw [eq] at hb; exact nomatch hb
  | advanced _ enabled => exact absurd (hi.symm.trans (encEnabled_iff.1 enabled).1) (by decide)
  | started next => exact ⟨_, next⟩
  | operand _ _ _ eq => rw [eq, writeReg_enc_busy, hi] at hb; exact nomatch hb
  | reset _ eq => rw [eq] at hb; exact nomatch hb

theorem enc_end (hs : step s = .next t) (hb : s.enc.busy = true) (hi : t.enc.busy = false) :
    (nextTurn s = .agent .enc ∧ s.fault = none ∧ t.enc.done = true) ∨ nextTurn s = .reset := by
  cases encEffect_of_step hs with
  | kept eq => rw [eq, hb] at hi; exact nomatch hi
  | truncated turn enabled _ eq => exact .inl ⟨turn, (encEnabled_iff.1 enabled).2, by rw [eq]; rfl⟩
  | advanced turn enabled _ eq =>
    rw [eq] at hi ⊢
    exact .inl ⟨turn, (encEnabled_iff.1 enabled).2, advanceEnc_done_of_idle _ hb hi⟩
  | started _ idle => exact absurd (idle.symm.trans hb) (by decide)
  | operand _ _ idle => exact absurd (idle.symm.trans hb) (by decide)
  | reset turn => exact .inr turn

theorem dec_start (hs : step s = .next t) (hi : s.dec.busy = false) (hb : t.dec.busy = true) :
    ∃ rest, HostNext s (.wr .cmd 2#64) rest := by
  cases decEffect_of_step hs with
  | kept eq => rw [eq, hi] at hb; exact nomatch hb
  | failed _ _ _ _ eq => rw [eq] at hb; exact nomatch hb
  | advanced _ enabled => exact absurd (hi.symm.trans (decEnabled_iff.1 enabled).1) (by decide)
  | started next => exact ⟨_, next⟩
  | operand _ _ _ eq => rw [eq, writeReg_dec_busy, hi] at hb; exact nomatch hb
  | reset _ eq => rw [eq] at hb; exact nomatch hb

theorem dec_end (hs : step s = .next t) (hb : s.dec.busy = true) (hi : t.dec.busy = false) :
    (nextTurn s = .agent .dec ∧ s.fault = none ∧ t.dec.done = true) ∨ nextTurn s = .reset := by
  cases decEffect_of_step hs with
  | kept eq => rw [eq, hb] at hi; exact nomatch hi
  | failed turn enabled _ _ eq => exact .inl ⟨turn, (decEnabled_iff.1 enabled).2, by rw [eq]; rfl⟩
  | advanced turn enabled _ _ eq =>
    rw [eq] at hi ⊢
    exact .inl ⟨turn, (decEnabled_iff.1 enabled).2, advanceDec_done_of_idle _ _ hb hi⟩
  | started _ idle => exact absurd (idle.symm.trans hb) (by decide)
  | operand _ _ idle => exact absurd (idle.symm.trans hb) (by decide)
  | reset turn => exact .inr turn

end

/-- Settles O28: of a step's effects on an engine only a start sets BUSY, and only the engine's own end or reset clears it. -/
theorem busyBitsChangeOnlyAtStartAndEnd : Obligations.BusyBitsChangeOnlyAtStartAndEnd := by
  unfold Obligations.BusyBitsChangeOnlyAtStartAndEnd
  exact fun s t hs => ⟨enc_start hs, enc_end hs, dec_start hs, dec_end hs⟩

/-! ### Operands of a running transaction -/

section
variable {s t : State}

theorem enc_operands_of_busy (hs : step s = .next t) (hr : nextTurn s ≠ .reset) (hb : s.enc.busy = true) :
    t.enc.value = s.enc.value ∧ t.enc.base = s.enc.base ∧ t.enc.cap = s.enc.cap := by
  cases encEffect_of_step hs with
  | kept eq => simp [eq]
  | truncated _ _ _ eq => simp [eq, finishEnc]
  | advanced _ _ _ eq => simp [eq]
  | started _ idle => exact absurd (idle.symm.trans hb) (by decide)
  | operand _ _ idle => exact absurd (idle.symm.trans hb) (by decide)
  | reset turn => exact absurd turn hr

theorem dec_operands_of_busy (hs : step s = .next t) (hr : nextTurn s ≠ .reset) (hb : s.dec.busy = true) :
    t.dec.base = s.dec.base ∧ t.dec.len = s.dec.len := by
  cases decEffect_of_step hs with
  | kept eq => simp [eq]
  | failed _ _ _ _ eq => simp [eq, finishDec]
  | advanced _ _ _ _ eq => simp [eq]
  | started _ idle => exact absurd (idle.symm.trans hb) (by decide)
  | operand _ _ idle => exact absurd (idle.symm.trans hb) (by decide)
  | reset turn => exact absurd turn hr

end

/-- Settles O29: an engine's own steps keep its operands, and an operand write or a start waits until it is idle. -/
theorem operandsAreFixedWhileBusy : Obligations.OperandsAreFixedWhileBusy := by
  unfold Obligations.OperandsAreFixedWhileBusy
  exact fun s t hs hr => ⟨enc_operands_of_busy hs hr, dec_operands_of_busy hs hr⟩

/-! ### Independence of the engines -/

/-- A turn of ENC does not look at DEC's registers. -/
theorem encTurn_setDec (s : State) (d : DecRegs) : encTurn (s.setDec d) = (encTurn s).setDec d := by
  rcases encTurn_cases s with ⟨h1, h⟩ | ⟨h1, h2, h⟩ | ⟨h1, h2, h3, h⟩ | ⟨h1, h2, h3, h⟩ <;> rw [h]
  · exact encTurn_of_disabled h1
  · exact encTurn_of_full h1 h2
  · exact encTurn_of_not_admits h1 h2 h3
  · exact encTurn_of_admits h1 h2 h3

/-- A turn of DEC does not look at ENC's registers. -/
theorem decTurn_setEnc (s : State) (e : EncRegs) : decTurn (s.setEnc e) = (decTurn s).setEnc e := by
  rcases decTurn_cases s with ⟨h1, h⟩ | ⟨h1, h2, h⟩ | ⟨h1, h2, h3, h⟩ | ⟨h1, h2, h3, h4, h⟩ | ⟨h1, h2, h3, h4, h⟩ <;> rw [h]
  · exact decTurn_of_disabled h1
  · exact decTurn_of_exhausted h1 h2
  · exact decTurn_of_overflow h1 h2 h3
  · exact decTurn_of_not_admits h1 h2 h3 h4
  · exact decTurn_of_admits h1 h2 h3 h4

/-- Settles O30: an engine's turn commutes with replacing the other engine's registers. -/
theorem enginesAreIndependent : Obligations.EnginesAreIndependent := by
  unfold Obligations.EnginesAreIndependent
  constructor
  · intro s t d ht hs
    obtain rfl : encTurn (takeTurn s) = t := by simpa [step_of_enc ht] using hs
    have hd : step (s.setDec d) = .next (encTurn ((takeTurn s).setDec d)) := step_of_enc ht
    rw [encTurn_setDec] at hd
    exact ⟨(encTurn_frame _).1, hd⟩
  · intro s t e ht hs
    obtain rfl : decTurn (takeTurn s) = t := by simpa [step_of_dec ht] using hs
    have he : step (s.setEnc e) = .next (decTurn ((takeTurn s).setEnc e)) := step_of_dec ht
    rw [decTurn_setEnc] at he
    exact ⟨(decTurn_frame _).1, he⟩

end Sys2Proof.Machine
end

section
/-! SUPPORT. The register map, reads of registers and the STATUS word (10_state.md R30, R32, R33). -/

namespace Sys2Proof

/-- Where a register's index leads (R30). -/
@[simp] theorem ofIndex_index (r : HReg) : HReg.ofIndex r.index = r := by
  cases r with
  | reserved k => revert k; decide
  | _ => rfl

/-- Settles O4: the table of R30, and the two maps as inverses of each other. -/
theorem registerMapIsOneToOne : Obligations.RegisterMapIsOneToOne := by
  unfold Obligations.RegisterMapIsOneToOne
  exact ⟨by decide, index_ofIndex, ofIndex_index⟩

namespace Machine

/-- Settles O13: RD is never held, and taking its turn and its action changes no register. -/
theorem registerReadReturnsHreg : Obligations.RegisterReadReturnsHreg := by
  unfold Obligations.RegisterReadReturnsHreg
  constructor
  · intro s r rest hn
    have hr : hreg r ((takeTurn s).setScript rest) = hreg r s := hreg_congr rfl rfl rfl r
    rw [step_of_not_held hn rfl, hostAct, hostRead, hr]
    rfl
  · intro s
    exact ⟨rfl, rfl, rfl, rfl, rfl, rfl, rfl, rfl, rfl, rfl, fun _ => rfl⟩

theorem bitWord_getElem (b : Bool) {i : Nat} (hi : i < 64) : (bitWord b)[i] = (decide (i = 0) && b) := by
  cases i <;> simp [bitWord]

/-- Every bit from 9 up is 0, since the word is below 2^9. -/
theorem statusWord_high (s : State) {i : Nat} (hi : 9 ≤ i) : (statusWord s).getLsbD i = false := by
  have hpow : 2 ^ 9 ≤ 2 ^ i := Nat.pow_le_pow_right (by omega) hi
  exact Nat.testBit_lt_two_pow (lt_of_lt_of_le (statusWord_lt s) hpow)

/-- Settles O14: each bit is that of the one field shifted to its place. -/
theorem statusWordLayout : Obligations.StatusWordLayout := by
  unfold Obligations.StatusWordLayout
  intro s
  refine ⟨?_, ?_, ?_, ?_, ?_, ?_, ?_, ?_, fun i => statusWord_high s⟩
  case refine_7 =>
    apply BitVec.eq_of_getLsbD_eq
    intro i hi
    interval_cases i <;> simp [statusWord, bitWord_getElem]
  all_goals simp [statusWord, bitWord_getElem]

end Machine
end Sys2Proof
end

section
/-! SUPPORT. Buffer accesses and the engines' footprints (20_memory.md R52 to R59): what a turn of ENC or of DEC does over another
content of BUFMEM. -/

namespace Sys2Proof.Machine

/-! ### One access -/

/-- Settles O16: an admitted access is a read or a write of `Memory`, any other is the fault. -/
theorem bufferReadsAndWritesOneByte : Obligations.BufferReadsAndWritesOneByte := by
  unfold Obligations.BufferReadsAndWritesOneByte
  intro s ag a v hm
  constructor
  · intro ha
    refine ⟨memRead_of_admits ha ag, _, memWrite_of_admits ha ag v, rfl, Memory.write_wf hm _ _, fun ag' => ?_,
      fun b => Memory.read_write_other _ _⟩
    rw [memRead_of_admits (by exact ha), State.setMem_mem, Memory.read_write_same hm]
  · exact fun ha => ⟨memRead_of_not_admits ha ag, memWrite_of_not_admits ha ag v⟩

/-- Settles O19: R54's sum from the law of `effAddr`, and the bounds on the pointers from the invariants of the engines. -/
theorem effectiveAddressWraps : Obligations.EffectiveAddressWraps := by
  unfold Obligations.EffectiveAddressWraps
  refine ⟨fun p base k hp => ?_, fun s => ⟨rfl, rfl⟩, fun s hi he _ => ?_, fun s hi he _ hs => ?_⟩
  · obtain ⟨⟨-, ha⟩, -⟩ := Platform.wf_iff.1 hp
    exact effAddr_toNat ha base k
  · exact hi.enc.wptr_le_nine (encEnabled_iff.1 he).1
  · have := hi.dec.rptr_le_eight (decEnabled_iff.1 he).1 hs
    omega

/-! ### ENC reads no byte (R58) -/

/-- A turn of ENC writes a byte: ENC has a step, capacity is left, and the address is admitted (R106). -/
abbrev EncWrites (s : State) : Prop :=
  encEnabled s = true ∧ s.enc.wptr ≠ s.enc.cap ∧ admits s.plat (encAddr s) = true

/-- What a turn of ENC at `s` makes of a content `m` of BUFMEM. -/
def encMem (s : State) (m : Memory) : Memory :=
  if EncWrites s then m.write (encAddr s).toNat (wireByte s.enc.rem) else m

section
variable {s t : State} {m : Memory}

theorem encMem_of_writes (h : EncWrites s) : encMem s m = m.write (encAddr s).toNat (wireByte s.enc.rem) := if_pos h

theorem encMem_of_not_writes (h : ¬ EncWrites s) : encMem s m = m := if_neg h

theorem encMem_wf (s : State) (hm : m.wf = true) : (encMem s m).wf = true := by
  by_cases h : EncWrites s
  · rw [encMem_of_writes h]
    exact Memory.write_wf hm _ _
  · rwa [encMem_of_not_writes h]

theorem encMem_read_same (h : EncWrites s) (hm : m.wf = true) :
    (encMem s m).read (encAddr s).toNat = wireByte s.enc.rem := by
  rw [encMem_of_writes h, Memory.read_write_same hm]

theorem encMem_read_other (s : State) (m : Memory) {b : Nat} (hb : b ≠ (encAddr s).toNat) :
    (encMem s m).read b = m.read b := by
  by_cases h : EncWrites s
  · rw [encMem_of_writes h, Memory.read_write_other _ _ hb]
  · rw [encMem_of_not_writes h]

/-- Over any other content a turn of ENC does the same to all else, and to that content what `encMem` says. -/
theorem encTurn_setMem (s : State) (m : Memory) : encTurn (s.setMem m) = (encTurn s).setMem (encMem s m) := by
  rcases encTurn_cases s with ⟨h1, h⟩ | ⟨h1, h2, h⟩ | ⟨h1, h2, h3, h⟩ | ⟨h1, h2, h3, h⟩ <;> rw [h]
  · rw [encMem_of_not_writes (by simp [h1])]
    exact encTurn_of_disabled h1
  · rw [encMem_of_not_writes (by simp [h2])]
    exact encTurn_of_full h1 h2
  · rw [encMem_of_not_writes (by simp [h3])]
    exact encTurn_of_not_admits h1 h2 h3
  · rw [encMem_of_writes ⟨h1, h2, h3⟩]
    exact encTurn_of_admits h1 h2 h3

theorem encTurn_mem (s : State) : (encTurn s).mem = encMem s s.mem :=
  congrArg State.mem (encTurn_setMem s s.mem)

theorem step_enc_mem (ht : nextTurn s = .agent .enc) (hs : step s = .next t) : t.mem = encMem s s.mem := by
  obtain rfl : encTurn (takeTurn s) = t := by simpa [step_of_enc ht] using hs
  exact encTurn_mem _

theorem step_enc_setMem (ht : nextTurn s = .agent .enc) (hs : step s = .next t) (m : Memory) :
    step (s.setMem m) = .next (t.setMem (encMem s m)) := by
  obtain rfl : encTurn (takeTurn s) = t := by simpa [step_of_enc ht] using hs
  have hm : step (s.setMem m) = .next (encTurn ((takeTurn s).setMem m)) := step_of_enc ht
  rwa [encTurn_setMem] at hm

/-- A byte that a turn of ENC changes is the one at its pointer, which is below the capacity and moves on (R28, R58). -/
theorem enc_changed_byte (hi : MachineInv s) (ht : nextTurn s = .agent .enc) (hs : step s = .next t) {b : Nat}
    (hne : t.mem.read b ≠ s.mem.read b) :
    b = (encAddr s).toNat ∧ s.enc.wptr.toNat < s.enc.cap.toNat ∧ t.enc.wptr.toNat = s.enc.wptr.toNat + 1 := by
  cases memEffect_of_step hs with
  | kept eq => exact absurd (by rw [eq]) hne
  | encWrite _ enabled room admitted =>
    have hb := (encEnabled_iff.1 enabled).1
    rw [enc_write_step ht enabled room admitted, Host.Outcome.next.injEq] at hs
    subst hs
    exact ⟨by_contra fun hbe => hne (Memory.read_write_other _ _ hbe), hi.enc.wptr_lt_cap hb room,
      by simpa using hi.enc.wptr_succ hi.plat hb⟩
  | hostWrite next => exact absurd (next.1.symm.trans ht) (by decide)

end

/-- Settles O31: a turn of ENC commutes with replacing BUFMEM, up to the one byte that it writes. -/
theorem encoderFootprint : Obligations.EncoderFootprint := by
  unfold Obligations.EncoderFootprint
  refine ⟨fun s t m ht hs => ?_, fun s t b hi ht hs hne => enc_changed_byte hi ht hs hne⟩
  rw [step_enc_mem ht hs]
  exact ⟨encMem s m, step_enc_setMem ht hs m, fun h => ⟨encMem_of_not_writes h, encMem_of_not_writes h⟩,
    fun h => ⟨encMem_read_same h, encMem_read_same h,
      fun b hb => ⟨encMem_read_other s m hb, encMem_read_other s s.mem hb⟩⟩⟩

/-! ### DEC reads at most the byte at its pointer (R59) -/

/-- With any content that agrees on the byte at its pointer, or with any content at all where the pointer has reached DEC_LEN, a
turn of DEC does the same. -/
theorem decTurn_setMem {s : State} {m : Memory}
    (hm : s.dec.rptr = s.dec.len ∨ m.read (decAddr s).toNat = s.mem.read (decAddr s).toNat) :
    decTurn (s.setMem m) = (decTurn s).setMem m := by
  rcases decTurn_cases s with ⟨h1, h⟩ | ⟨h1, h2, h⟩ | ⟨h1, h2, h3, h⟩ | ⟨h1, h2, h3, h4, h⟩ | ⟨h1, h2, h3, h4, h⟩ <;> rw [h]
  · exact decTurn_of_disabled h1
  · exact decTurn_of_exhausted h1 h2
  · exact decTurn_of_overflow h1 h2 h3
  · exact decTurn_of_not_admits h1 h2 h3 h4
  · rw [← hm.resolve_left h2]
    exact decTurn_of_admits h1 h2 h3 h4

/-- Settles O32: a turn of DEC keeps BUFMEM and commutes with replacing it, the byte at its pointer apart. -/
theorem decoderFootprint : Obligations.DecoderFootprint := by
  unfold Obligations.DecoderFootprint
  intro s t m ht hs hm
  obtain rfl : decTurn (takeTurn s) = t := by simpa [step_of_dec ht] using hs
  have hd : step (s.setMem m) = .next (decTurn ((takeTurn s).setMem m)) := step_of_dec ht
  rw [decTurn_setMem (by exact hm)] at hd
  exact ⟨step_mem_of_dec_turn hs ht, hd⟩

end Sys2Proof.Machine
end

section
/-! SUPPORT. The order of two steps (20_memory.md R62, R66; 60_exceptions.md R209): on different bytes it does not matter, on the
same byte the later write stays. -/

namespace Sys2Proof.Machine

/-! ### Steps of the engines on different bytes -/

section
variable {s : State}

theorem step_enc_scheduled (s : State) (rest : List Turn) :
    step (s.setSchedule (.agent .enc :: rest)) = .next ((encTurn s).setSchedule rest) := by
  rw [step_of_enc (nextTurn_of_schedule rfl), takeTurn_of_schedule rfl]
  exact congrArg _ (encTurn_setSchedule s rest)

theorem step_dec_scheduled (s : State) (rest : List Turn) :
    step (s.setSchedule (.agent .dec :: rest)) = .next ((decTurn s).setSchedule rest) := by
  rw [step_of_dec (nextTurn_of_schedule rfl), takeTurn_of_schedule rfl]
  exact congrArg _ (decTurn_setSchedule s rest)

/-- Without a fault a turn of ENC changes only BUFMEM and ENC's registers. -/
theorem encTurn_eq_of_no_fault (h : (encTurn s).fault = none) :
    encTurn s = (s.setMem (encMem s s.mem)).setEnc (encTurn s).enc := by
  rw [← encTurn_mem]
  rcases encTurn_cases s with ⟨-, e⟩ | ⟨-, -, e⟩ | ⟨-, -, -, e⟩ | ⟨-, -, -, e⟩ <;> rw [e] at h ⊢
  · rfl
  · rfl
  · exact nomatch h
  · rfl

/-- Without a fault a turn of DEC changes only DEC's registers. -/
theorem decTurn_eq_of_no_fault (h : (decTurn s).fault = none) : decTurn s = s.setDec (decTurn s).dec := by
  rcases decTurn_cases s with ⟨-, e⟩ | ⟨-, -, e⟩ | ⟨-, -, -, e⟩ | ⟨-, -, -, -, e⟩ | ⟨-, -, -, -, e⟩ <;> rw [e] at h ⊢
  · rfl
  · rfl
  · rfl
  · exact nomatch h
  · rfl

/-- The turns commute: ENC does not look at DEC's registers, and DEC neither at ENC's nor at the byte that ENC writes. -/
theorem encTurn_decTurn_comm (hne : encAddr s ≠ decAddr s) (he : (encTurn s).fault = none) (hd : (decTurn s).fault = none) :
    decTurn (encTurn s) = encTurn (decTurn s) := by
  have hbyte : (encMem s s.mem).read (decAddr s).toNat = s.mem.read (decAddr s).toNat :=
    encMem_read_other s s.mem fun h => hne (BitVec.eq_of_toNat_eq h.symm)
  calc decTurn (encTurn s)
    _ = ((decTurn s).setMem (encMem s s.mem)).setEnc (encTurn s).enc := by
      rw [encTurn_eq_of_no_fault he, decTurn_setEnc, decTurn_setMem (.inr hbyte)]
      rfl
    _ = ((s.setMem (encMem s s.mem)).setEnc (encTurn s).enc).setDec (decTurn s).dec := by
      rw [decTurn_eq_of_no_fault hd]
      rfl
    _ = encTurn (decTurn s) := by
      rw [← encTurn_eq_of_no_fault he, ← encTurn_setDec, ← decTurn_eq_of_no_fault hd]

end

/-- Settles O33: each order runs both turns, and the turns commute. -/
theorem engineStepsCommute : Obligations.EngineStepsCommute := by
  unfold Obligations.EngineStepsCommute
  intro s rest hne he hd
  calc run 2 (s.setSchedule (.agent .enc :: .agent .dec :: rest))
    _ = .next ((decTurn (encTurn s)).setSchedule rest) := run_two (step_enc_scheduled ..) (step_dec_scheduled ..)
    _ = .next ((encTurn (decTurn s)).setSchedule rest) := by rw [encTurn_decTurn_comm hne he hd]
    _ = run 2 (s.setSchedule (.agent .dec :: .agent .enc :: rest)) :=
      (run_two (step_dec_scheduled ..) (step_enc_scheduled ..)).symm

/-! ### A race on one byte -/

/-- Settles O34: both writes are admitted, neither step stops the other, and each leaves its own byte at the address. -/
theorem raceTakesTheLaterWrite : Obligations.RaceTakesTheLaterWrite := by
  unfold Obligations.RaceTakesTheLaterWrite
  intro s v script' rest hm he hc ha hscript
  constructor
  · obtain ⟨-, -, hplat, hkept, -⟩ := encTurn_frame s
    have hwf : (encTurn s).mem.wf = true := encTurn_mem s ▸ encMem_wf s hm
    have hhost := host_write_step (s := (encTurn s).setSchedule (.agent .host :: rest)) ⟨rfl, hkept.trans hscript⟩
      ((congrArg (admits · _) hplat).trans ha)
    exact ⟨_, run_two (step_enc_scheduled s _) hhost, Memory.read_write_same hwf _ v⟩
  · have hhost := host_write_step (s := s.setSchedule (.agent .host :: .agent .enc :: rest)) ⟨rfl, hscript⟩ ha
    have henc := step_enc_scheduled ((s.setScript script').setMem (s.mem.write (encAddr s).toNat v)) rest
    refine ⟨_, run_two hhost henc, ?_⟩
    rw [State.setSchedule_mem, encTurn_mem]
    exact encMem_read_same ⟨he, hc, ha⟩ (Memory.write_wf hm _ v)

end Sys2Proof.Machine
end

section
/-! SUPPORT. Command words as commands (30_encoding.md R75 to R77). -/

namespace Sys2Proof

/-- Settles O3: `eq_encode_of_decode` one way, `decode_encode` the other. -/
theorem decodeInvertsEncode : Obligations.DecodeInvertsEncode := by
  unfold Obligations.DecodeInvertsEncode
  intro d i
  constructor
  · exact eq_encode_of_decode
  · rintro rfl
    exact decode_encode i

/-- The encoder's word of a command, field by field (R75, R76). -/
theorem eq_encode_iff_fields (d : Word) (i : Instr) : d = encode i ↔ rsvdField d = 0#60 ∧ opcField d = opcodeOf i := by
  constructor
  · rintro rfl
    cases i <;> decide
  · rintro ⟨hr, ho⟩
    rw [command_word_eq_fields d, hr, ho, encode]

theorem exists_instr_iff {P : Instr → Prop} : (∃ i, P i) ↔ P .nop ∨ P .enc ∨ P .dec := by
  constructor
  · rintro ⟨i, hi⟩
    cases i with
    | nop => exact .inl hi
    | enc => exact .inr (.inl hi)
    | dec => exact .inr (.inr hi)
  · rintro (h | h | h) <;> exact ⟨_, h⟩

/-- The decoder reads a command iff RSVD is 0 and OPC is the opcode of one (R77). -/
theorem decode_ok_iff_fields (d : Word) :
    (∃ i, decode d = .ok i) ↔
      rsvdField d = 0#60 ∧ (opcField d = 0x0#4 ∨ opcField d = 0x1#4 ∨ opcField d = 0x2#4) := by
  calc (∃ i, decode d = .ok i)
    _ ↔ ∃ i, rsvdField d = 0#60 ∧ opcField d = opcodeOf i :=
      exists_congr fun i => (decodeInvertsEncode d i).trans (eq_encode_iff_fields d i)
    _ ↔ rsvdField d = 0#60 ∧ ∃ i, opcField d = opcodeOf i := exists_and_left
    _ ↔ _ := and_congr_right fun _ => exists_instr_iff

namespace Machine

theorem commandWord_of_error {d : Word} {e : DecodeError} (h : decode d = .error e) (s : State) :
    commandWord d s = .next (illegalCommand s) := by simp [commandWord, h]

/-- Settles O2: the fields and the words of the legal commands, and a write of any other word answers `illegalCommand`. -/
theorem commandWordLegality : Obligations.CommandWordLegality := by
  unfold Obligations.CommandWordLegality
  intro d
  refine ⟨decode_ok_iff_fields d, decode_ok_iff_word d, fun hd s => ?_⟩
  obtain ⟨e, he⟩ := decode_error_of_not_ok hd
  exact commandWord_of_error he s

end Machine

/-- Settles O1: the decoder evaluated on each of the words. -/
theorem tableWordsDecodeToTheirCommands : Obligations.TableWordsDecodeToTheirCommands := by
  unfold Obligations.TableWordsDecodeToTheirCommands
  exact ⟨rfl, rfl, rfl, rfl, rfl, rfl, rfl, rfl⟩

end Sys2Proof
end

section
/-! SUPPORT. The shape of an encoding (30_encoding.md R72, R74). -/

namespace Sys2Proof.Machine

section
variable {v : Word}

/-- Without C, a byte of enc(v) is its chunk (R70, R72). -/
theorem encByte_of_last {k : Nat} (h : encLen v ≤ k + 1) : encByte v k = ((v >>> (7 * k)).extractLsb' 0 7).setWidth 8 := by
  simp [encByte, Nat.not_lt.2 h]

/-- What is left of a value for the tenth byte is its bit 63. -/
theorem shift_63_of_top_bit (h : 2 ^ 63 ≤ v.toNat) : v >>> 63 = 1#64 := by
  apply BitVec.eq_of_toNat_eq
  have := v.isLt
  simp only [BitVec.toNat_ushiftRight, Nat.shiftRight_eq_div_pow, BitVec.toNat_ofNat]
  omega

theorem encByte_nine (h : 2 ^ 63 ≤ v.toNat) : encByte v 9 = 0x01#8 := by
  rw [encByte_of_last (encLen_le_ten v), shift_63_of_top_bit h]
  rfl

/-- Nine chunks give v below bit 63, and the tenth gives bit 63 itself. -/
theorem chunkSum_encByte_ten (v : Word) : chunkSum (encByte v) 10 = v := by
  apply BitVec.eq_of_toNat_eq
  have := v.isLt
  rw [chunkSum, BitVec.toNat_add, chunkSum_encByte v (le_refl 9), BitVec.toNat_shiftLeft, wireChunk_encByte_toNat,
    Nat.shiftLeft_eq]
  omega

/-- The chunks of enc(v) add up to v (R72). -/
theorem chunkSum_encLen (v : Word) : chunkSum (encByte v) (encLen v) = v := by
  rcases Nat.lt_or_eq_of_le (encLen_le_ten v) with h | h
  · apply BitVec.eq_of_toNat_eq
    rw [chunkSum_encByte v (by omega), Nat.mod_eq_of_lt ((encLen_le_iff v (one_le_encLen v)).1 le_rfl)]
  · rw [h, chunkSum_encByte_ten]

/-- The last chunk holds all that is left of v, which is not 0 after fewer than n(v) chunks (R74). -/
theorem last_chunk_ne_zero (h : 1 < encLen v) : wireChunk (encByte v (encLen v - 1)) ≠ 0#64 := by
  obtain ⟨j, hj⟩ : ∃ j, encLen v = j + 1 := ⟨encLen v - 1, by omega⟩
  have hlow : 2 ^ (7 * j) ≤ v.toNat := (lt_encLen_iff v (by omega)).1 (by omega)
  have hhigh : v.toNat < 2 ^ (7 * j) * 2 ^ 7 := by
    rw [← pow_add]
    exact (encLen_le_iff v (by omega)).1 hj.le
  have hchunk : (wireChunk (encByte v j)).toNat = v.toNat / 2 ^ (7 * j) := by
    rw [wireChunk_encByte_toNat, Nat.mod_eq_of_lt (Nat.div_lt_of_lt_mul hhigh)]
  have hpos : 0 < v.toNat / 2 ^ (7 * j) := Nat.div_pos hlow (Nat.two_pow_pos _)
  intro h0
  rw [hj, Nat.add_sub_cancel] at h0
  rw [h0] at hchunk
  exact hpos.ne hchunk

end

/-- Settles O38: n(v) by the range of v, C and D byte by byte, and the sum and the last of the chunks. -/
theorem shapeOfAnEncoding : Obligations.ShapeOfAnEncoding := by
  unfold Obligations.ShapeOfAnEncoding
  intro v
  refine ⟨⟨one_le_encLen v, encLen_le_ten v⟩, fun j hj _ => encLen_le_iff v hj, fun k hk => ?_, encByte_chunk v,
    encByte_nine, chunkSum_encLen v, last_chunk_ne_zero⟩
  rw [wireMore_encByte, decide_eq_false_iff_not]
  omega

end Sys2Proof.Machine
end

section
/-! SUPPORT. One poll of WAIT (30_encoding.md R81). -/

namespace Sys2Proof.Machine

section
variable {m v : Word} {s : State}

/-- A poll that finds the value reads STATUS. -/
theorem hostPoll_of_eq (h : statusWord s &&& m = v) :
    hostPoll m v s = s.setReads (.reg .status (statusWord s) :: s.reads) := if_pos h

/-- A poll that does not find the value reads STATUS, and the WAIT is next again. -/
theorem hostPoll_of_ne (h : statusWord s &&& m ≠ v) :
    hostPoll m v s = (s.setReads (.reg .status (statusWord s) :: s.reads)).setScript (.wait m v :: s.script) := if_neg h

end

theorem statusWord_actionTaken (s : State) (rest : List HostAction) :
    statusWord ((takeTurn s).setScript rest) = statusWord s := statusWord_congr rfl rfl rfl

/-- Settles O15: WAIT is never held, and its poll sees the STATUS word from before its turn. -/
theorem waitPollsStatus : Obligations.WaitPollsStatus := by
  unfold Obligations.WaitPollsStatus
  intro s mask value rest hn
  rw [step_of_not_held hn rfl, hostAct]
  have hstatus := statusWord_actionTaken s rest
  constructor
  · intro hm
    rw [hostPoll_of_eq (by rwa [hstatus]), hstatus]
    rfl
  · intro hm
    rw [hostPoll_of_ne (by rwa [hstatus]), hstatus, State.setScript_script, ← hn.2]
    rfl

end Sys2Proof.Machine
end

section
/-! SUPPORT. The bytes that an encode transaction leaves in BUFMEM, and when it ends (20_memory.md R54, R58; 30_encoding.md R72;
40_encoder.md R104). -/

namespace Sys2Proof.Machine

/-! ### The bytes of a buffer, written in order -/

/-- `m` holds the first `n` bytes of `b` in the buffer at `base`, each where no later one of them shares its address (log 10). -/
def Memory.HoldsBytes (m : Memory) (p : Platform) (base : Addr) (b : Nat → Byte) (n : Nat) : Prop :=
  ∀ k, k < n → LastAtItsAddress p base n k → m.read (effAddr p base (BitVec.ofNat 64 k)).toNat = b k

/-- `m` after the first `n` bytes of `b` are written in order into the buffer at `base`. -/
def Memory.writeBytes (m : Memory) (p : Platform) (base : Addr) (b : Nat → Byte) : Nat → Memory
  | 0 => m
  | n + 1 => (m.writeBytes p base b n).write (effAddr p base (BitVec.ofNat 64 n)).toNat (b n)

section
variable {m : Memory} {p : Platform} {base : Addr} {b : Nat → Byte} {n : Nat}

/-- The next byte of the buffer overwrites only offsets that share its address. -/
theorem Memory.HoldsBytes.write_next (h : m.HoldsBytes p base b n) (hm : m.wf = true) :
    (m.write (effAddr p base (BitVec.ofNat 64 n)).toNat (b n)).HoldsBytes p base b (n + 1) := by
  intro k hk hlast
  rcases Nat.lt_succ_iff_lt_or_eq.1 hk with hlt | rfl
  · have hne := hlast n hlt (Nat.lt_succ_self n)
    rw [Memory.read_write_other _ _ fun e => hne (BitVec.eq_of_toNat_eq e.symm)]
    exact h k hlt fun j hkj hjn => hlast j hkj (by omega)
  · exact Memory.read_write_same hm _ _

theorem Memory.HoldsBytes.of_distinct (h : m.HoldsBytes p base b n) (hp : p.wf = true) (hd : OffsetsDistinct p n) {k : Nat}
    (hk : k < n) : m.read (effAddr p base (BitVec.ofNat 64 k)).toNat = b k := by
  obtain ⟨⟨-, ha⟩, -⟩ := Platform.wf_iff.1 hp
  exact h k hk (lastAtItsAddress_of_distinct ha hd hk)

theorem Memory.writeBytes_wf (hm : m.wf = true) (n : Nat) : (m.writeBytes p base b n).wf = true := by
  induction n with
  | zero => exact hm
  | succ n ih => exact Memory.write_wf ih _ _

theorem Memory.writeBytes_holdsBytes (hm : m.wf = true) (n : Nat) :
    (m.writeBytes p base b n).HoldsBytes p base b n := by
  induction n with
  | zero => exact nofun
  | succ n ih => exact ih.write_next (Memory.writeBytes_wf hm n)

theorem Memory.read_writeBytes_other {a : Nat} (ha : ∀ k, k < n → a ≠ (effAddr p base (BitVec.ofNat 64 k)).toNat) :
    (m.writeBytes p base b n).read a = m.read a := by
  induction n with
  | zero => rfl
  | succ n ih =>
    rw [Memory.writeBytes, Memory.read_write_other _ _ (ha n (Nat.lt_succ_self n))]
    exact ih fun k hk => ha k (by omega)

end

/-! ### The end of an encode transaction -/

section
variable {p : Platform} {e : EncRegs}

/-- Nothing remains after byte k of enc(ENC_VALUE) iff it is the last (R72, R104). -/
theorem nextRem_eq_zero_iff (h : e.rem = e.value >>> (7 * e.wptr.toNat)) :
    nextRem e.rem = 0#64 ↔ encLen e.value ≤ e.wptr.toNat + 1 := by
  rw [nextRem_of_shift h, shift_eq_zero_iff e.value (by omega)]

/-- Where nothing remains after the byte, the transaction is complete (R104). -/
theorem advanceEnc_of_nothing_left (p : Platform) (h : nextRem e.rem = 0#64) :
    (advanceEnc p e).busy = false ∧ (advanceEnc p e).done = true ∧ (advanceEnc p e).trunc = false := by
  simp [advanceEnc, finishEnc, h]

theorem advanceEnc_busy_of_more (p : Platform) (h : nextRem e.rem ≠ 0#64) : (advanceEnc p e).busy = e.busy := by
  simp [advanceEnc, h]

/-- While ENC is busy, bytes of enc(ENC_VALUE) remain to be written (R28). -/
theorem EncInv.wptr_lt_encLen (h : EncInv p e) (hb : e.busy = true) : e.wptr.toNat < encLen e.value := by
  by_cases h0 : e.wptr = 0#64
  · have := one_le_encLen e.value
    simp only [h0, BitVec.toNat_ofNat]
    omega
  · have hpos : 0 < e.wptr.toNat := Nat.pos_of_ne_zero fun hz => h0 (BitVec.eq_of_toNat_eq hz)
    have hmore := h.busy_more hb h0
    rw [h.busy_rem hb, ne_eq, shift_eq_zero_iff e.value hpos] at hmore
    omega

end

end Sys2Proof.Machine
end

section
/-! SUPPORT. An encode transaction under every interleaving (40_encoder.md R107, R108; 70_reset_and_hazards.md R242). -/

namespace Sys2Proof.Machine

/-! ### What the steps of the other agents leave of a running transaction -/

section
variable {k : Nat} {s t u : State}

/-- No host action clears FAULT (R202). -/
theorem hostAct_keeps_fault {a : HostAction} (h : hostAct a u = .next t) (hf : u.fault ≠ none) : t.fault ≠ none := by
  rcases hostAct_cases h with ⟨d, i, -, -, hx⟩ | ⟨d, e, -, -, rfl⟩ | ⟨r, d, -, -, rfl⟩ | ⟨r, -, rfl⟩ | ⟨b, v, -, -, rfl⟩ |
    ⟨b, v, -, -, rfl⟩ | ⟨b, -, -, rfl⟩ | ⟨b, -, -, rfl⟩ | ⟨m, v, -, -, rfl⟩ | ⟨m, v, -, -, rfl⟩
  · exact (exec_frame hx).1 ▸ hf
  all_goals simp [hf]

/-- No step clears FAULT (R202). -/
theorem step_keeps_fault (hs : step s = .next t) (hf : s.fault ≠ none) : t.fault ≠ none := by
  rcases step_cases_full hs with ⟨-, -, rfl⟩ | ⟨a, rest, -, -, rfl⟩ | ⟨a, rest, -, -, hx⟩ | ⟨-, rfl⟩ | ⟨-, rfl⟩ | ⟨-, rfl⟩
  · exact hf
  · exact hf
  · exact hostAct_keeps_fault hx hf
  · rwa [encTurn_of_disabled (s := takeTurn s) (Bool.eq_false_iff.2 fun he => hf (encEnabled_iff.1 he).2)]
  · rwa [decTurn_of_disabled (s := takeTurn s) (Bool.eq_false_iff.2 fun hd => hf (decEnabled_iff.1 hd).2)]
  · exact hf

/-- With FAULT set, a busy ENC stays busy, reset apart (R201). -/
theorem enc_busy_of_fault (hs : step s = .next t) (hr : nextTurn s ≠ .reset) (hf : s.fault ≠ none) (hb : s.enc.busy = true) :
    t.enc.busy = true := by
  by_contra hi
  rcases enc_end hs hb (by simpa using hi) with ⟨-, hn, -⟩ | hn
  · exact hf hn
  · exact hr hn

/-- A run from a state with FAULT set does not end the transaction. -/
theorem EncRun.busy_of_fault (h : EncRun k s t) (hf : s.fault ≠ none) (hb : s.enc.busy = true) : t.enc.busy = true := by
  induction h with
  | refl => exact hb
  | encTurn _ turn next _ ih => exact ih (step_keeps_fault next hf) (enc_busy_of_fault next (by simp [turn]) hf hb)
  | otherTurn _ _ noReset _ next _ ih => exact ih (step_keeps_fault next hf) (enc_busy_of_fault next noReset hf hb)

theorem EncRun.plat (h : EncRun k s t) : t.plat = s.plat := by
  induction h with
  | refl => rfl
  | encTurn _ _ next _ ih => exact ih.trans (step_plat next)
  | otherTurn _ _ _ _ next _ ih => exact ih.trans (step_plat next)

/-- A run that ENC is busy through ends where ENC is not busy. -/
theorem EncRun.eq_of_idle (h : EncRun k s t) (hi : s.enc.busy = false) : k = 0 ∧ t = s := by
  cases h with
  | refl => exact ⟨rfl, rfl⟩
  | encTurn busy => exact absurd (hi.symm.trans busy) (by decide)
  | otherTurn busy => exact absurd (hi.symm.trans busy) (by decide)

/-- Only its own turn and reset change the registers of a busy ENC (R27, R181). -/
theorem enc_kept_of_other_turn (hs : step s = .next t) (hb : s.enc.busy = true) (ht : nextTurn s ≠ .agent .enc)
    (hr : nextTurn s ≠ .reset) : t.enc = s.enc := by
  cases encEffect_of_step hs with
  | kept eq => exact eq
  | truncated turn => exact absurd turn ht
  | advanced turn => exact absurd turn ht
  | started _ idle => exact absurd (idle.symm.trans hb) (by decide)
  | operand _ _ idle => exact absurd (idle.symm.trans hb) (by decide)
  | reset turn => exact absurd turn hr

/-- ENC's own turn is no write of the host. -/
theorem encSpanKept_of_enc_turn (ht : nextTurn s = .agent .enc) : EncSpanKept s :=
  fun _ _ _ hn => absurd (hn.1.symm.trans ht) (by decide)

end

/-! ### The end of a run -/

/-- `t` ends the encode transaction that runs in `s` as R107 says, after `k` more turns of ENC. -/
structure EncEnds (k : Nat) (s t : State) : Prop where
  done : t.enc.done = true
  count : t.enc.wptr.toNat = min s.enc.cap.toNat (encLen s.enc.value)
  trunc : t.enc.trunc = decide (s.enc.cap.toNat < encLen s.enc.value)
  operands : t.enc.value = s.enc.value ∧ t.enc.base = s.enc.base ∧ t.enc.cap = s.enc.cap
  bytes : t.mem.HoldsBytes s.plat s.enc.base (encByte s.enc.value) t.enc.wptr.toNat
  turns : s.enc.wptr.toNat + k = t.enc.wptr.toNat + if s.enc.cap.toNat < encLen s.enc.value then 1 else 0

section
variable {k : Nat} {s t u : State}

/-- A step before the run that keeps the operands adds to the count of turns by how far it moved the pointer. -/
theorem EncEnds.of_step {j : Nat} (h : EncEnds k u t) (hs : step s = .next u) (hr : nextTurn s ≠ .reset)
    (hb : s.enc.busy = true) (hj : u.enc.wptr.toNat = s.enc.wptr.toNat + j) : EncEnds (k + j) s t := by
  obtain ⟨hdone, hcount, htrunc, hoperands, hbytes, hturns⟩ := h
  obtain ⟨hv, hbase, hc⟩ := enc_operands_of_busy hs hr hb
  rw [hv, hc] at hcount htrunc hturns
  rw [hv, hbase, hc] at hoperands
  rw [hv, hbase, step_plat hs] at hbytes
  exact ⟨hdone, hcount, htrunc, hoperands, hbytes, by omega⟩

/-- The turn that finds the capacity used up ends the transaction truncated: bytes remain (R104). -/
theorem EncEnds.truncated (hi : MachineInv s) (hw : WrittenPrefix s) (hb : s.enc.busy = true)
    (hc : s.enc.wptr = s.enc.cap) (eq : t.enc = finishEnc true s.enc) (hm : t.mem = s.mem) : EncEnds 1 s t := by
  have hmore := hi.enc.wptr_lt_encLen hb
  rw [hc] at hmore
  have hwptr : t.enc.wptr = s.enc.cap := by rw [eq, ← hc]; rfl
  refine ⟨by rw [eq]; rfl, by rw [hwptr]; omega, by simp [eq, finishEnc, hmore], by simp [eq, finishEnc], ?_,
    by rw [hwptr, hc, if_pos hmore]⟩
  rw [hwptr, ← hc, hm]
  exact hw hb

/-- The turn that writes the last byte ends the transaction complete: it is byte n(ENC_VALUE) - 1 (R104). -/
theorem EncEnds.completed (hi : MachineInv s) (hw : WrittenPrefix s) (hb : s.enc.busy = true) (hc : s.enc.wptr ≠ s.enc.cap)
    (hrem : nextRem s.enc.rem = 0#64) (eq : t.enc = advanceEnc s.plat s.enc)
    (hm : t.mem = s.mem.write (encAddr s).toNat (wireByte s.enc.rem)) : EncEnds 1 s t := by
  have hshift := hi.enc.busy_rem hb
  have hlast := (nextRem_eq_zero_iff hshift).1 hrem
  have hmore := hi.enc.wptr_lt_encLen hb
  have hcap := hi.enc.wptr_lt_cap hb hc
  have hwptr : t.enc.wptr.toNat = s.enc.wptr.toNat + 1 := by
    simpa [eq] using hi.enc.wptr_succ hi.plat hb
  obtain ⟨-, hdone, htrunc⟩ := advanceEnc_of_nothing_left s.plat hrem
  have hroom : ¬ s.enc.cap.toNat < encLen s.enc.value := by omega
  refine ⟨by rw [eq, hdone], by omega, by simp [eq, htrunc, hroom], by simp [eq], ?_, by rw [if_neg hroom, hwptr]⟩
  rw [hwptr, hm, encAddr_eq_offset, wireByte_eq_encByte hshift]
  exact Memory.HoldsBytes.write_next (hw hb) hi.mem.canonical

/-- R107 from any point of the transaction: while ENC runs it is on its way to the end that R107 gives. -/
theorem encEnds_of_run (h : EncRun k s t) (hi : MachineInv s) (hw : WrittenPrefix s) (hb : s.enc.busy = true)
    (hidle : t.enc.busy = false) : EncEnds k s t := by
  induction h with
  | refl => exact absurd (hb.symm.trans hidle) (by decide)
  | otherTurn _ turn noReset kept next rest ih =>
    have heq := enc_kept_of_other_turn next hb turn noReset
    have hends := ih (hi.step next) (hw.step hi (fun _ => kept) next) (heq ▸ hb) hidle
    exact hends.of_step (j := 0) next noReset hb (by rw [heq]; rfl)
  | @encTurn k s t u _ turn next rest ih =>
    have hi' := hi.step next
    have hw' := hw.step hi (fun _ => encSpanKept_of_enc_turn turn) next
    obtain rfl : encTurn (takeTurn s) = t := by simpa [step_of_enc turn] using next
    rcases encTurn_cases (takeTurn s) with ⟨hoff, e⟩ | ⟨-, hc, e⟩ | ⟨-, -, -, e⟩ | ⟨-, hc, -, e⟩
    · have hf : s.fault ≠ none := fun hn => Bool.eq_false_iff.1 hoff (encEnabled_iff.2 ⟨hb, hn⟩)
      rw [e] at rest
      exact absurd ((rest.busy_of_fault hf hb).symm.trans hidle) (by decide)
    · rw [e] at rest
      obtain ⟨rfl, rfl⟩ := rest.eq_of_idle rfl
      exact .truncated hi hw hb hc rfl rfl
    · rw [e] at rest
      exact absurd ((rest.busy_of_fault (by simp) hb).symm.trans hidle) (by decide)
    · by_cases hrem : nextRem s.enc.rem = 0#64
      · rw [e] at rest
        obtain ⟨rfl, rfl⟩ := rest.eq_of_idle (advanceEnc_of_nothing_left _ hrem).1
        exact .completed hi hw hb hc hrem rfl rfl
      · have hbusy : (encTurn (takeTurn s)).enc.busy = true := by
          rw [e]
          exact (advanceEnc_busy_of_more _ hrem).trans hb
        refine (ih hi' hw' hbusy hidle).of_step (j := 1) next (by simp [turn]) hb ?_
        simpa [e] using hi.enc.wptr_succ hi.plat hb

end

/-- Settles O41: the run from the start of the transaction, where nothing is written yet, is on its way to R107's end. -/
theorem encodeUnderAnyInterleaving : Obligations.EncodeUnderAnyInterleaving := by
  unfold Obligations.EncodeUnderAnyInterleaving
  rintro k s t c n rfl rfl hi hb h0 hrun hidle
  have hw : WrittenPrefix s := fun _ j hj => by simp [h0] at hj
  have hplat : t.plat = s.plat := hrun.plat
  obtain ⟨hdone, hcount, htrunc, ⟨hv, hbase, hc⟩, hbytes, hturns⟩ := encEnds_of_run hrun hi hw hb hidle
  rw [hcount] at hbytes hturns
  rw [h0] at hturns
  unfold byteAt
  rw [hplat]
  exact ⟨hdone, hcount, htrunc, hv, hbase, hc, hbytes, fun hd i hlt => hbytes.of_distinct hi.plat hd hlt,
    by simpa using hturns⟩

end Sys2Proof.Machine
end

section
/-! SUPPORT. An encode transaction with ENC alone running, as an equation for its final state (40_encoder.md R104, R106, R107). -/

namespace Sys2Proof.Machine

/-! ### Runs of one engine's turns -/

/-- Turns of ENC alone are its turn function iterated. -/
theorem run_encTurns (k : Nat) (s : State) (rest : List Turn) :
    run k (s.setSchedule (List.replicate k (.agent .enc) ++ rest)) = .next ((encTurn^[k] s).setSchedule rest) := by
  induction k generalizing s with
  | zero => rfl
  | succ k ih =>
    rw [Function.iterate_succ_apply, ← ih]
    exact run_succ_of_next (step_enc_scheduled s _) k

/-- R184 as a step of the machine. -/
theorem enc_start_step {s : State} {rest : List HostAction} (h : HostNext s (.wr .cmd 1#64) rest)
    (hi : s.enc.busy = false) :
    step s = .next ((((takeTurn s).setScript rest).setEnc (startEnc s.enc)).setCmdIllegal false) := by
  rw [host_command_step h (i := .enc) rfl (by rw [held_enc_command, hi])]
  simp [exec, execEnc, hi]

/-! ### The encoder after k bytes of its transaction -/

/-- The registers of an encoder that has written `k` bytes of its transaction. -/
def EncRegs.running (e : EncRegs) (k : Nat) : EncRegs :=
  { e with rem := e.value >>> (7 * k), wptr := BitVec.ofNat 64 k, busy := true, done := false, trunc := false }

/-- The state `s` with `k` bytes of enc(ENC_VALUE) written into ENC's buffer and the encoder's registers `e`. -/
def State.encoded (s : State) (k : Nat) (e : EncRegs) : State :=
  (s.setMem (s.mem.writeBytes s.plat s.enc.base (encByte s.enc.value) k)).setEnc e

/-- What an encode transaction that ends after `k` bytes makes of `s` (R104). -/
def State.encodeEnd (s : State) (k : Nat) (truncated : Bool) : State :=
  s.encoded k (finishEnc truncated (s.enc.running k))

section
variable {p : Platform} {e : EncRegs} {s : State} {k : Nat}

theorem startEnc_eq_running (e : EncRegs) : startEnc e = e.running 0 := by simp [startEnc, EncRegs.running]

theorem running_wptr_toNat (e : EncRegs) (hk : k ≤ 10) : (e.running k).wptr.toNat = k := by
  simp only [EncRegs.running, BitVec.toNat_ofNat]
  omega

theorem running_wptr_eq_cap_iff (e : EncRegs) (hk : k ≤ 10) : (e.running k).wptr = (e.running k).cap ↔ k = e.cap.toNat := by
  rw [← BitVec.toNat_inj, running_wptr_toNat e hk]
  rfl

theorem running_rem (e : EncRegs) (hk : k ≤ 10) :
    (e.running k).rem = (e.running k).value >>> (7 * (e.running k).wptr.toNat) := by
  rw [running_wptr_toNat e hk]
  rfl

/-- A byte written takes the registers on by one byte, and ends the transaction where it is the last (R104, R106). -/
theorem advanceEnc_running (hp : p.wf = true) (e : EncRegs) (hk : k < 10) :
    advanceEnc p (e.running k) =
      if encLen e.value ≤ k + 1 then finishEnc false (e.running (k + 1)) else e.running (k + 1) := by
  obtain ⟨-, hl, -⟩ := Platform.wf_iff.1 hp
  have hwptr := running_wptr_toNat e hk.le
  have hnext : truncTo p.lenW ((e.running k).wptr + 1#64) = (e.running (k + 1)).wptr := by
    apply BitVec.eq_of_toNat_eq
    rw [truncTo_succ_toNat hl (by omega), hwptr, running_wptr_toNat e hk]
  have hrem : nextRem (e.running k).rem = (e.running (k + 1)).rem := by
    rw [nextRem_of_shift (running_rem e hk.le), hwptr]
    rfl
  have hend : nextRem (e.running k).rem = 0#64 ↔ encLen e.value ≤ k + 1 := by
    rw [nextRem_eq_zero_iff (running_rem e hk.le), hwptr]
    rfl
  by_cases hlast : encLen e.value ≤ k + 1
  · rw [if_pos hlast, advanceEnc, hnext, if_pos (hend.2 hlast), hrem]
    rfl
  · rw [if_neg hlast, advanceEnc, hnext, if_neg (fun h => hlast (hend.1 h)), hrem]
    rfl

/-- A turn of ENC with k bytes written, capacity left and the next byte admitted. -/
theorem encTurn_encoded (hf : s.fault = none) (hk : k < 10) (hc : k ≠ s.enc.cap.toNat)
    (ha : admits s.plat (effAddr s.plat s.enc.base (BitVec.ofNat 64 k)) = true) :
    encTurn (s.encoded k (s.enc.running k)) = s.encoded (k + 1) (advanceEnc s.plat (s.enc.running k)) := by
  have hbyte : wireByte (s.enc.running k).rem = encByte s.enc.value k := by
    rw [wireByte_eq_encByte (running_rem s.enc hk.le), running_wptr_toNat s.enc hk.le]
    rfl
  have hroom : (s.enc.running k).wptr ≠ (s.enc.running k).cap := fun h => hc ((running_wptr_eq_cap_iff s.enc hk.le).1 h)
  rw [encTurn_of_admits (s := s.encoded k (s.enc.running k)) (encEnabled_iff.2 ⟨rfl, hf⟩) hroom ha, State.encoded,
    State.setEnc_enc, hbyte]
  rfl

/-- The turn of ENC that finds its capacity used up after k bytes. -/
theorem encTurn_encoded_of_full (hf : s.fault = none) (hk : k ≤ 10) (hc : k = s.enc.cap.toNat) :
    encTurn (s.encoded k (s.enc.running k)) = s.encodeEnd k true :=
  encTurn_of_full (encEnabled_iff.2 ⟨rfl, hf⟩) ((running_wptr_eq_cap_iff s.enc hk).2 hc)

/-- While capacity is left and bytes remain, k turns of ENC write k bytes. -/
theorem encTurn_iterate_running (hp : s.plat.wf = true) (hf : s.fault = none) (hc : k ≤ s.enc.cap.toNat)
    (hn : k < encLen s.enc.value) (ha : SpanAdmitted s.plat s.enc.base k) :
    encTurn^[k] (s.encoded 0 (s.enc.running 0)) = s.encoded k (s.enc.running k) := by
  induction k with
  | zero => rfl
  | succ k ih =>
    have := encLen_le_ten s.enc.value
    rw [Function.iterate_succ_apply', ih (by omega) (by omega) fun j hj => ha j (by omega),
      encTurn_encoded hf (by omega) (by omega) (ha k (Nat.lt_succ_self k)), advanceEnc_running hp s.enc (by omega),
      if_neg (by omega)]

/-- R107: min(c, n) turns of ENC write as many bytes, and where c < n one more ends the transaction. -/
theorem encTurn_iterate_encodeEnd {c n : Nat} (hcap : c = s.enc.cap.toNat) (hlen : n = encLen s.enc.value)
    (hp : s.plat.wf = true) (hf : s.fault = none) (ha : SpanAdmitted s.plat s.enc.base (min c n)) :
    encTurn^[min c n + if c < n then 1 else 0] (s.encoded 0 (s.enc.running 0)) =
      s.encodeEnd (min c n) (decide (c < n)) := by
  have hten := encLen_le_ten s.enc.value
  by_cases hcn : c < n
  · rw [if_pos hcn, decide_eq_true hcn]
    rw [min_eq_left hcn.le] at ha ⊢
    rw [Function.iterate_succ_apply', encTurn_iterate_running hp hf (by omega) (by omega) ha,
      encTurn_encoded_of_full hf (by omega) hcap]
  · obtain ⟨j, rfl⟩ : ∃ j, n = j + 1 := ⟨n - 1, by have := one_le_encLen s.enc.value; omega⟩
    rw [if_neg hcn, decide_eq_false hcn]
    rw [min_eq_right (Nat.not_lt.1 hcn)] at ha ⊢
    rw [Nat.add_zero, Function.iterate_succ_apply',
      encTurn_iterate_running hp hf (by omega) (by omega) fun i hi => ha i (by omega),
      encTurn_encoded hf (by omega) (by omega) (ha j (Nat.lt_succ_self j)), advanceEnc_running hp s.enc (by omega),
      if_pos hlen.ge]
    rfl

/-- A run that starts an encode transaction and goes on with ENC alone, from what its turns come to. -/
theorem run_encode {t : State} {script' : List HostAction} {rest : List Turn} (hi : s.enc.busy = false)
    (hscript : s.script = .wr .cmd 1#64 :: script')
    (hsched : s.schedule = .agent .host :: (List.replicate k (.agent .enc) ++ rest))
    (hturns : encTurn^[k] (((s.setScript script').setCmdIllegal false).encoded 0 (s.enc.running 0)) = t) :
    run (1 + k) s = .next (t.setSchedule rest) := by
  have hstart := enc_start_step ⟨nextTurn_of_schedule hsched, hscript⟩ hi
  rw [takeTurn_of_schedule hsched, startEnc_eq_running] at hstart
  rw [Nat.add_comm, run_succ_of_next hstart, ← hturns, ← run_encTurns]
  rfl

end

/-- Settles O39: the command starts the transaction, and ENC's turns take it to `State.encodeEnd`. -/
theorem encodeTransaction : Obligations.EncodeTransaction := by
  unfold Obligations.EncodeTransaction
  rintro s script' rest c n w steps hcap hlen rfl rfl hp hm hf hi hscript hsched ha
  have hten := encLen_le_ten s.enc.value
  refine ⟨by split <;> omega, ?_⟩
  have hturns := encTurn_iterate_encodeEnd (s := (s.setScript script').setCmdIllegal false) hcap hlen hp hf ha
  have hrun := run_encode hi hscript hsched hturns
  have hbytes := Memory.writeBytes_holdsBytes (p := s.plat) (base := s.enc.base) (b := encByte s.enc.value) hm (min c n)
  exact ⟨_, hrun, rfl, hbytes, fun hd k hk => hbytes.of_distinct hp hd hk, fun b hb => Memory.read_writeBytes_other hb⟩

end Sys2Proof.Machine
end

section
/-! SUPPORT. The boundary transactions: value 0, capacity 0 and length 0 (40_encoder.md R109, R110; 41_decoder.md R150). -/

namespace Sys2Proof.Machine

/-- R185 as a step of the machine. -/
theorem dec_start_step {s : State} {rest : List HostAction} (h : HostNext s (.wr .cmd 2#64) rest)
    (hi : s.dec.busy = false) :
    step s = .next ((((takeTurn s).setScript rest).setDec (startDec s.dec)).setCmdIllegal false) := by
  rw [host_command_step h (i := .dec) rfl (by rw [held_dec_command, hi])]
  simp [exec, execDec, hi]

section
variable {s : State} {script' : List HostAction} {rest : List Turn}

/-- R109: of value 0 there is one byte, so this is the transaction of R107 with n = 1. -/
theorem encode_zero_value (hv : s.enc.value = 0#64) (hc : s.enc.cap ≠ 0#64) (hp : s.plat.wf = true) (hm : s.mem.wf = true)
    (hf : s.fault = none) (hi : s.enc.busy = false) (ha : admits s.plat (effAddr s.plat s.enc.base 0#64) = true)
    (hscript : s.script = .wr .cmd 1#64 :: script') (hsched : s.schedule = .agent .host :: .agent .enc :: rest) :
    ∃ t, run 2 s = .next t ∧ t.enc.wptr = 1#64 ∧ t.enc.trunc = false ∧ t.enc.busy = false ∧
      t.mem.read (effAddr s.plat s.enc.base 0#64).toNat = 0x00#8 ∧
      ∀ b, b ≠ (effAddr s.plat s.enc.base 0#64).toNat → t.mem.read b = s.mem.read b := by
  have hn : 1 = encLen s.enc.value := by rw [hv]; rfl
  have hpos : 1 ≤ s.enc.cap.toNat := Nat.pos_of_ne_zero fun h => hc (BitVec.eq_of_toNat_eq h)
  have hadm : SpanAdmitted s.plat s.enc.base 1 := fun k hk => by
    obtain rfl : k = 0 := by omega
    exact ha
  obtain ⟨-, t, hrun, ht, hbyte, -, hother⟩ := encodeTransaction s script' rest s.enc.cap.toNat 1 1 1 rfl hn (by omega)
    (by rw [if_neg (by omega)]) hp hm hf hi hscript hsched hadm
  refine ⟨t, hrun, by rw [ht], ?_, by rw [ht], ?_, fun b hb => hother b fun k hk => ?_⟩
  · rw [ht]
    exact decide_eq_false (by omega)
  · rw [show (0x00#8) = encByte s.enc.value 0 by rw [hv]; rfl, ← hbyte 0 (by omega) fun j h1 h2 => by omega, byteAt, ht]
  · obtain rfl : k = 0 := by omega
    exact hb

/-- R110: the first turn of ENC finds the capacity used up. -/
theorem encode_zero_capacity (hc : s.enc.cap = 0#64) (hf : s.fault = none) (hi : s.enc.busy = false)
    (hscript : s.script = .wr .cmd 1#64 :: script') (hsched : s.schedule = .agent .host :: .agent .enc :: rest) :
    run 2 s = .next
      ((((s.setScript script').setCmdIllegal false).setEnc (finishEnc true (startEnc s.enc))).setSchedule rest) := by
  have hstart := enc_start_step ⟨nextTurn_of_schedule hsched, hscript⟩ hi
  have hturn := step_enc_scheduled (((s.setScript script').setEnc (startEnc s.enc)).setCmdIllegal false) rest
  rw [takeTurn_of_schedule hsched] at hstart
  rw [encTurn_of_full (s := ((s.setScript script').setEnc (startEnc s.enc)).setCmdIllegal false)
    (encEnabled_iff.2 ⟨rfl, hf⟩) hc.symm] at hturn
  exact run_two hstart hturn

/-- R150: the first turn of DEC finds the input used up. -/
theorem decode_zero_length (hl : s.dec.len = 0#64) (hf : s.fault = none) (hi : s.dec.busy = false)
    (hscript : s.script = .wr .cmd 2#64 :: script') (hsched : s.schedule = .agent .host :: .agent .dec :: rest) :
    run 2 s = .next
      ((((s.setScript script').setCmdIllegal false).setDec (finishDec errEOF 0#64 (startDec s.dec))).setSchedule rest) := by
  have hstart := dec_start_step ⟨nextTurn_of_schedule hsched, hscript⟩ hi
  have hturn := step_dec_scheduled (((s.setScript script').setDec (startDec s.dec)).setCmdIllegal false) rest
  rw [takeTurn_of_schedule hsched] at hstart
  rw [decTurn_of_exhausted (s := ((s.setScript script').setDec (startDec s.dec)).setCmdIllegal false)
    (decEnabled_iff.2 ⟨rfl, hf⟩) hl.symm] at hturn
  exact run_two hstart hturn

end

/-- Settles O44: each of the three transactions ends with the first turn of its engine. -/
theorem zeroValueCapacityAndLength : Obligations.ZeroValueCapacityAndLength := by
  unfold Obligations.ZeroValueCapacityAndLength
  exact ⟨fun s script' rest => encode_zero_value, fun s script' rest => encode_zero_capacity,
    fun s script' rest => decode_zero_length⟩

end Sys2Proof.Machine
end

section
/-! SUPPORT. The encoder's datapath and its step (40_encoder.md R100 to R102, R106). -/

namespace Sys2Proof.Machine

/-! ### The byte made of the remaining value -/

theorem nextRem_toNat (rem : Word) : (nextRem rem).toNat = rem.toNat / 2 ^ 7 := by
  rw [nextRem, BitVec.toNat_ushiftRight, Nat.shiftRight_eq_div_pow]

/-- The byte ENC makes of a remaining value is the first byte of that value's encoding. -/
theorem wireByte_eq_encByte_zero (rem : Word) : wireByte rem = encByte rem 0 :=
  wireByte_eq_encByte (e := { EncRegs.zero with value := rem, rem := rem }) (by simp [EncRegs.zero])

/-- Settles O18: the wire byte is the first byte of an encoding, whose fields are known, and more than one byte follows exactly
when the shifted value is not 0. -/
theorem wireByteOfRemainingValue : Obligations.WireByteOfRemainingValue := by
  unfold Obligations.WireByteOfRemainingValue
  intro rem
  have hnext := nextRem_toNat rem
  have hmore : nextRem rem ≠ 0#64 ↔ 0 + 1 < encLen rem :=
    (not_congr (shift_eq_zero_iff rem (j := 1) le_rfl)).trans Nat.not_le
  refine ⟨rfl, bit7_setWidth _, hnext, by omega, ?_, ?_⟩
  · rw [wireByte_eq_encByte_zero, wireMore_encByte]
    exact decide_eq_decide.2 hmore.symm
  · rw [wireByte_eq_encByte_zero, encByte_chunk]
    simp

/-! ### The step -/

/-- The registers of a busy encoder after a byte, field by field (R104, R106). -/
theorem advanceEnc_of_busy (p : Platform) {e : EncRegs} (hb : e.busy = true) :
    advanceEnc p e =
      { e with
        wptr := truncTo p.lenW (e.wptr + 1#64), rem := nextRem e.rem, busy := decide (nextRem e.rem ≠ 0#64),
        done := if nextRem e.rem = 0#64 then true else e.done,
        trunc := if nextRem e.rem = 0#64 then false else e.trunc } := by
  rcases advanceEnc_cases p e with ⟨h, eq⟩ | ⟨h, eq⟩ <;> rw [eq] <;> simp [h, hb]

/-- Settles O20: the four cases of a turn of ENC. -/
theorem encoderStep : Obligations.EncoderStep := by
  unfold Obligations.EncoderStep
  intro s ht
  refine ⟨fun hoff => ?_, fun hb hf hc => ?_, fun hb hf hc hm ha => ?_, fun hb hf hc ha => ?_⟩
  · have hdis : encEnabled (takeTurn s) = false := by
      refine Bool.eq_false_iff.2 fun he => ?_
      obtain ⟨hb, hf⟩ := encEnabled_iff.1 he
      exact hoff.elim (fun hi => Bool.false_ne_true (hi.symm.trans hb)) fun hn => hn hf
    rw [step_of_enc ht, encTurn_of_disabled hdis]
  · rw [step_of_enc ht, encTurn_of_full (s := takeTurn s) (encEnabled_iff.2 ⟨hb, hf⟩) hc]
    rfl
  · refine ⟨_, enc_write_step ht (encEnabled_iff.2 ⟨hb, hf⟩) hc ha, ?_, Memory.read_write_same hm _ _,
      fun b hbne => Memory.read_write_other _ _ hbne⟩
    rw [advanceEnc_of_busy s.plat hb]
    rfl
  · rw [step_of_enc ht, encTurn_of_not_admits (s := takeTurn s) (encEnabled_iff.2 ⟨hb, hf⟩) hc ha]
    rfl

end Sys2Proof.Machine
end

section
/-! SUPPORT. The outcome of a decode transaction by the bytes of its span (41_decoder.md R147). -/

namespace Sys2Proof.Machine

/-- R147: over input bytes `b` a transaction with DEC_LEN = `L` ends with this error code, result and count, after this many turns
of DEC. -/
inductive DecodesTo (b : Nat → Byte) (L : Nat) : (err : BitVec 2) → (result : Word) → (count turns : Nat) → Prop where
  /-- Byte `t` is the first terminator. -/
  | terminated {t : Nat} (first : firstTerminator b (min L 9) = some t) :
      DecodesTo b L errOK (chunkSum b (t + 1)) (t + 1) (t + 1)
  /-- The input ends before a terminator. -/
  | exhausted (noLast : firstTerminator b (min L 9) = none) (short : L ≤ 9) : DecodesTo b L errEOF 0#64 L (L + 1)
  /-- Nine continuation bytes, and more input. -/
  | overflowed (noLast : firstTerminator b (min L 9) = none) (long : 10 ≤ L) : DecodesTo b L errOVF 0#64 9 10

section
variable {b : Nat → Byte} {L count turns : Nat} {err : BitVec 2} {result : Word}

/-- The three cases of R147 written out. -/
theorem decodesTo_iff :
    DecodesTo b L err result count turns ↔
      (∃ t, firstTerminator b (min L 9) = some t ∧ err = errOK ∧ count = t + 1 ∧ turns = t + 1 ∧
        result = chunkSum b (t + 1)) ∨
      (firstTerminator b (min L 9) = none ∧ L ≤ 9 ∧ err = errEOF ∧ count = L ∧ turns = L + 1 ∧ result = 0#64) ∨
      (firstTerminator b (min L 9) = none ∧ 10 ≤ L ∧ err = errOVF ∧ count = 9 ∧ turns = 10 ∧ result = 0#64) := by
  constructor
  · intro h
    cases h with
    | terminated first => exact .inl ⟨_, first, rfl, rfl, rfl, rfl⟩
    | exhausted noLast short => exact .inr (.inl ⟨noLast, short, rfl, rfl, rfl, rfl⟩)
    | overflowed noLast long => exact .inr (.inr ⟨noLast, long, rfl, rfl, rfl, rfl⟩)
  · rintro (⟨t, first, rfl, rfl, rfl, rfl⟩ | ⟨noLast, short, rfl, rfl, rfl, rfl⟩ | ⟨noLast, long, rfl, rfl, rfl, rfl⟩)
    · exact .terminated first
    · exact .exhausted noLast short
    · exact .overflowed noLast long

/-- The cases of R147 exclude each other, so the outcome is one. -/
theorem DecodesTo.unique {err' : BitVec 2} {result' : Word} {count' turns' : Nat} (h : DecodesTo b L err result count turns)
    (h' : DecodesTo b L err' result' count' turns') : err = err' ∧ result = result' ∧ count = count' ∧ turns = turns' := by
  cases h with
  | terminated first =>
    cases h' with
    | terminated first' =>
      obtain rfl := Option.some.inj (first.symm.trans first')
      exact ⟨rfl, rfl, rfl, rfl⟩
    | exhausted noLast => exact nomatch first.symm.trans noLast
    | overflowed noLast => exact nomatch first.symm.trans noLast
  | exhausted noLast short =>
    cases h' with
    | terminated first => exact nomatch first.symm.trans noLast
    | exhausted => exact ⟨rfl, rfl, rfl, rfl⟩
    | overflowed _ long => omega
  | overflowed noLast long =>
    cases h' with
    | terminated first => exact nomatch first.symm.trans noLast
    | exhausted _ short => omega
    | overflowed => exact ⟨rfl, rfl, rfl, rfl⟩

theorem DecodesTo.bounds (h : DecodesTo b L err result count turns) : turns ≤ 10 ∧ count ≤ 9 := by
  cases h with
  | terminated first =>
    have := (firstTerminator_eq_some.1 first).1
    omega
  | exhausted _ short => omega
  | overflowed => omega

/-- After `k` continuation bytes, where neither the length nor the overflow guard stops DEC, byte `k` is one of those that
DEC_COUNT counts. -/
theorem DecodesTo.lt_count {k : Nat} (h : DecodesTo b L err result count turns)
    (hmore : ∀ j, j < k → wireMore (b j) = true) (hL : k < L) (h9 : k < 9) : k < count := by
  cases h with
  | @terminated t first =>
    obtain ⟨-, hlast, -⟩ := firstTerminator_eq_some.1 first
    by_contra hk
    exact Bool.false_ne_true (hlast.symm.trans (hmore t (by omega)))
  | exhausted => exact hL
  | overflowed => exact h9

end

end Sys2Proof.Machine
end

section
/-! SUPPORT. The turns of a running decoder, from any point of its transaction (41_decoder.md R141 to R148). -/

namespace Sys2Proof.Machine

/-- In `s` a decode transaction runs that has read `k` bytes, all continuation bytes, of the input `b` with DEC_LEN = `L`
(R28). -/
structure Decoding (b : Nat → Byte) (L k : Nat) (s : State) : Prop where
  plat : s.plat.wf = true
  len : s.dec.len.toNat = L
  bytes : ∀ j, j < min L 9 → byteAt s s.dec.base j = b j
  busy : s.dec.busy = true
  acc : s.dec.acc = chunkSum b k
  shift : s.dec.shift.toNat = 7 * k
  rptr : s.dec.rptr.toNat = k
  le_len : k ≤ L
  more : ∀ j, j < k → wireMore (b j) = true

/-- In `s` a decode transaction of the input `b` with DEC_LEN = `L` has ended as R147 says, after `n` turns of DEC. -/
structure Decoded (b : Nat → Byte) (L n : Nat) (s : State) : Prop where
  idle : s.dec.busy = false
  done : s.dec.done = true
  outcome : DecodesTo b L s.dec.err s.dec.result s.dec.rptr.toNat n

section
variable {b : Nat → Byte} {L k : Nat} {s : State}

/-- A transaction that has just started. -/
theorem Decoding.start (hp : s.plat.wf = true) (hb : s.dec.busy = true) (ha : s.dec.acc = 0#64) (hs : s.dec.shift = 0#6)
    (hr : s.dec.rptr = 0#64) : Decoding (byteAt s s.dec.base) s.dec.len.toNat 0 s where
  plat := hp
  len := rfl
  bytes := fun _ _ => rfl
  busy := hb
  acc := ha
  shift := by simp [hs]
  rptr := by simp [hr]
  le_len := Nat.zero_le _
  more := nofun

/-- DEC_SHIFT has 6 bits (R28). -/
theorem Decoding.le_nine (h : Decoding b L k s) : k ≤ 9 := by
  have := h.shift
  omega

/-- A span that was read whole holds no terminator. -/
theorem Decoding.no_terminator (h : Decoding b L k s) (hk : min L 9 ≤ k) : firstTerminator b (min L 9) = none :=
  firstTerminator_eq_none.2 fun j hj => h.more j (by omega)

theorem Decoding.lt_len (h : Decoding b L k s) (hl : s.dec.rptr ≠ s.dec.len) : k < L :=
  lt_of_le_of_ne h.le_len fun e => hl (BitVec.eq_of_toNat_eq (by rw [h.rptr, h.len, e]))

/-- The truncation detector ends the transaction (R141). -/
theorem Decoding.exhausted (h : Decoding b L k s) (hl : s.dec.rptr = s.dec.len) :
    Decoded b L (k + 1) (s.setDec (finishDec errEOF 0#64 s.dec)) := by
  obtain rfl : k = L := by rw [← h.rptr, hl, h.len]
  refine ⟨rfl, rfl, ?_⟩
  change DecodesTo b k errEOF 0#64 s.dec.rptr.toNat (k + 1)
  rw [h.rptr]
  exact .exhausted (h.no_terminator (min_le_left _ _)) h.le_nine

/-- The overflow guard ends the transaction (R142). -/
theorem Decoding.overflowed (h : Decoding b L k s) (hl : s.dec.rptr ≠ s.dec.len) (hs : 63 ≤ s.dec.shift.toNat) :
    Decoded b L (k + 1) (s.setDec (finishDec errOVF 0#64 s.dec)) := by
  have hlt := h.lt_len hl
  obtain rfl : k = 9 := by have := h.shift; omega
  refine ⟨rfl, rfl, ?_⟩
  change DecodesTo b L errOVF 0#64 s.dec.rptr.toNat 10
  rw [h.rptr]
  exact .overflowed (h.no_terminator (min_le_right _ _)) hlt

theorem decAddr_eq_offset (s : State) :
    decAddr s = effAddr s.plat s.dec.base (BitVec.ofNat 64 s.dec.rptr.toNat) := by simp [decAddr]

/-- The byte DEC reads is the next of the input. -/
theorem Decoding.next_byte (h : Decoding b L k s) (hl : k < L) (h9 : k < 9) : s.mem.read (decAddr s).toNat = b k := by
  rw [← byteAt_rptr, h.rptr]
  exact h.bytes k (by omega)

theorem Decoding.rptr_succ (h : Decoding b L k s) : (truncTo s.plat.lenW (s.dec.rptr + 1#64)).toNat = k + 1 := by
  obtain ⟨-, hl, -⟩ := Platform.wf_iff.1 h.plat
  have := h.le_nine
  rw [truncTo_succ_toNat hl (by rw [h.rptr]; omega), h.rptr]

theorem Decoding.reassemble_eq (h : Decoding b L k s) : reassemble s.dec.acc s.dec.shift (b k) = chunkSum b (k + 1) := by
  rw [reassemble, h.acc, h.shift, chunkSum]

/-- A byte read ends the transaction where it is a terminator, and else it goes on (R145). -/
theorem Decoding.advanced (h : Decoding b L k s) (hl : k < L) (h9 : k < 9) :
    Decoding b L (k + 1) (s.setDec (advanceDec s.plat (b k) s.dec)) ∨
      Decoded b L (k + 1) (s.setDec (advanceDec s.plat (b k) s.dec)) := by
  rcases advanceDec_cases s.plat (b k) s.dec with ⟨hlast, e⟩ | ⟨hmore, e⟩ <;> rw [e, h.reassemble_eq]
  · have hfirst : firstTerminator b (min L 9) = some k := firstTerminator_eq_some.2 ⟨by omega, hlast, h.more⟩
    refine .inr ⟨rfl, rfl, ?_⟩
    change DecodesTo b L errOK (chunkSum b (k + 1)) (truncTo s.plat.lenW (s.dec.rptr + 1#64)).toNat (k + 1)
    rw [h.rptr_succ]
    exact .terminated hfirst
  · have hshift : (s.dec.shift + 7#6).toNat = 7 * (k + 1) := by
      have := h.shift
      rw [BitVec.toNat_add, BitVec.toNat_ofNat]
      omega
    refine .inl
      { plat := h.plat, len := h.len, bytes := h.bytes, busy := h.busy, acc := rfl, shift := hshift, rptr := h.rptr_succ,
        le_len := hl, more := fun j hj => ?_ }
    rcases Nat.lt_succ_iff_lt_or_eq.1 hj with hlt | rfl
    · exact h.more j hlt
    · exact hmore

/-- A turn of DEC changes only its registers and takes a running transaction on by one byte or ends it, or it meets an address
that is not admitted. -/
theorem Decoding.next (h : Decoding b L k s) (hf : s.fault = none) :
    (∃ d, decTurn s = s.setDec d ∧ (Decoding b L (k + 1) (s.setDec d) ∨ Decoded b L (k + 1) (s.setDec d))) ∨
      (k < L ∧ k < 9 ∧ admits s.plat (decAddr s) = false ∧
        decTurn s = raiseFault (.bufferNotAdmitted .dec (decAddr s)) s) := by
  have hshift := h.shift
  rcases decTurn_cases s with ⟨hoff, -⟩ | ⟨-, hl, e⟩ | ⟨-, hl, hs, e⟩ | ⟨-, hl, hs, ha, e⟩ | ⟨-, hl, hs, -, e⟩
  · exact absurd (decEnabled_iff.2 ⟨h.busy, hf⟩) (by simp [hoff])
  · exact .inl ⟨_, e, .inr (h.exhausted hl)⟩
  · exact .inl ⟨_, e, .inr (h.overflowed hl hs)⟩
  · exact .inr ⟨h.lt_len hl, by omega, ha, e⟩
  · have h9 : k < 9 := by omega
    rw [h.next_byte (h.lt_len hl) h9] at e
    exact .inl ⟨_, e, h.advanced (h.lt_len hl) h9⟩

/-- A transaction that runs is not at its end. -/
theorem Decoding.not_at_end {err : BitVec 2} {result : Word} {count : Nat} (h : Decoding b L k s) :
    ¬ DecodesTo b L err result count k := by
  intro hd
  have hle := h.le_len
  have h9 := h.le_nine
  cases hd with
  | @terminated t first =>
    obtain ⟨-, hlast, -⟩ := firstTerminator_eq_some.1 first
    exact Bool.false_ne_true (hlast.symm.trans (h.more t (Nat.lt_succ_self t)))
  | exhausted => omega
  | overflowed => omega

end

end Sys2Proof.Machine
end

section
/-! SUPPORT. A decode transaction with DEC alone running (41_decoder.md R146, R147). -/

namespace Sys2Proof.Machine

/-- Turns of DEC alone are its turn function iterated. -/
theorem run_decTurns (k : Nat) (s : State) (rest : List Turn) :
    run k (s.setSchedule (List.replicate k (.agent .dec) ++ rest)) = .next ((decTurn^[k] s).setSchedule rest) := by
  induction k generalizing s with
  | zero => rfl
  | succ k ih =>
    rw [Function.iterate_succ_apply, ← ih]
    exact run_succ_of_next (step_dec_scheduled s _) k

/-- No turn of DEC changes its operands. -/
theorem decTurn_operands (s : State) : (decTurn s).dec.base = s.dec.base ∧ (decTurn s).dec.len = s.dec.len := by
  rcases decTurn_cases s with ⟨-, e⟩ | ⟨-, -, e⟩ | ⟨-, -, -, e⟩ | ⟨-, -, -, -, e⟩ | ⟨-, -, -, -, e⟩ <;> rw [e] <;>
    simp [finishDec]

/-- `s` with a decode transaction just started, and `script'` left to the host (R185). -/
def State.decodeStarted (s : State) (script' : List HostAction) : State :=
  ((s.setScript script').setDec (startDec s.dec)).setCmdIllegal false

section
variable {b : Nat → Byte} {L k m count turns : Nat} {err : BitVec 2} {result : Word} {s : State}

/-- From any point of a transaction whose reads are admitted, DEC's turns up to R147's number take it to its end. -/
theorem Decoding.iterate (h : Decoding b L k s) (hd : DecodesTo b L err result count (k + m)) (hf : s.fault = none)
    (ha : SpanAdmitted s.plat s.dec.base count) :
    ∃ d, decTurn^[m] s = s.setDec d ∧ d.base = s.dec.base ∧ d.len = s.dec.len ∧ Decoded b L (k + m) (s.setDec d) := by
  induction m generalizing k s with
  | zero => exact absurd hd h.not_at_end
  | succ m ih =>
    obtain ⟨hbase, hlen⟩ := decTurn_operands s
    rcases h.next hf with ⟨d, e, hgoes | hends⟩ | ⟨hl, h9, hno, -⟩
    · rw [e] at hbase hlen
      rw [show k + (m + 1) = k + 1 + m by omega] at hd ⊢
      obtain ⟨d', e', hbase', hlen', hends⟩ := ih hgoes hd hf (by rw [hbase]; exact ha)
      exact ⟨d', by rw [Function.iterate_succ_apply, e, e']; rfl, hbase'.trans hbase, hlen'.trans hlen, hends⟩
    · obtain ⟨-, -, -, hturns⟩ := hends.outcome.unique hd
      obtain rfl : m = 0 := by omega
      rw [e] at hbase hlen
      exact ⟨d, e, hbase, hlen, hends⟩
    · rw [decAddr_eq_offset, h.rptr, ha k (hd.lt_count h.more hl h9)] at hno
      exact nomatch hno

/-- R147 as a run: the command starts the transaction, and DEC's turns take it to its end. -/
theorem run_decode {script' : List HostAction} {rest : List Turn}
    (hd : DecodesTo (byteAt s s.dec.base) s.dec.len.toNat err result count turns) (hp : s.plat.wf = true)
    (hf : s.fault = none) (hi : s.dec.busy = false) (ha : SpanAdmitted s.plat s.dec.base count)
    (hscript : s.script = .wr .cmd 2#64 :: script')
    (hsched : s.schedule = .agent .host :: (List.replicate turns (.agent .dec) ++ rest)) :
    ∃ t, run (1 + turns) s = .next t ∧
      t = { s with script := script', schedule := rest, cmdIllegal := false, dec := t.dec } ∧
      t.dec.busy = false ∧ t.dec.done = true ∧ t.dec.err = err ∧ t.dec.result = result ∧
      t.dec.rptr = BitVec.ofNat 64 count ∧ t.dec.base = s.dec.base ∧ t.dec.len = s.dec.len := by
  have hstart := dec_start_step ⟨nextTurn_of_schedule hsched, hscript⟩ hi
  rw [takeTurn_of_schedule hsched] at hstart
  have hdecoding : Decoding (byteAt s s.dec.base) s.dec.len.toNat 0 (s.decodeStarted script') :=
    Decoding.start (s := s.decodeStarted script') hp rfl rfl rfl rfl
  have hend : DecodesTo (byteAt s s.dec.base) s.dec.len.toNat err result count (0 + turns) := by rwa [Nat.zero_add]
  obtain ⟨d, hturns, hbase, hlen, hidle, hdone, houtcome⟩ := hdecoding.iterate hend hf ha
  obtain ⟨herr, hresult, hcount, -⟩ := houtcome.unique hend
  have hrun := run_decTurns turns (s.decodeStarted script') rest
  rw [hturns] at hrun
  rw [Nat.add_comm, run_succ_of_next hstart]
  refine ⟨_, hrun, rfl, hidle, hdone, herr, hresult, ?_, hbase, hlen⟩
  rw [← hcount]
  simp

end

/-- Settles O40: the cases of R147 are `DecodesTo`, and the run comes to that outcome. -/
theorem decodeTransaction : Obligations.DecodeTransaction := by
  unfold Obligations.DecodeTransaction
  rintro s script' rest L turns count err result rfl hcases hp hf hi ha hscript hsched
  have hd := decodesTo_iff.2 hcases
  obtain ⟨hturns, hcount⟩ := hd.bounds
  exact ⟨hturns, hcount, run_decode hd hp hf hi ha hscript hsched⟩

end Sys2Proof.Machine
end

section
/-! SUPPORT. A decode transaction under every interleaving (41_decoder.md R147; 70_reset_and_hazards.md R242). -/

namespace Sys2Proof.Machine

/-! ### What the steps of the other agents leave of a running transaction -/

section
variable {k : Nat} {s t : State}

/-- With FAULT set, a busy DEC stays busy, reset apart (R201). -/
theorem dec_busy_of_fault (hs : step s = .next t) (hr : nextTurn s ≠ .reset) (hf : s.fault ≠ none) (hb : s.dec.busy = true) :
    t.dec.busy = true := by
  by_contra hi
  rcases dec_end hs hb (by simpa using hi) with ⟨-, hn, -⟩ | hn
  · exact hf hn
  · exact hr hn

/-- A run from a state with FAULT set does not end the transaction. -/
theorem DecRun.busy_of_fault (h : DecRun k s t) (hf : s.fault ≠ none) (hb : s.dec.busy = true) : t.dec.busy = true := by
  induction h with
  | refl => exact hb
  | decTurn _ turn next _ ih => exact ih (step_keeps_fault next hf) (dec_busy_of_fault next (by simp [turn]) hf hb)
  | otherTurn _ _ noReset _ next _ ih => exact ih (step_keeps_fault next hf) (dec_busy_of_fault next noReset hf hb)

/-- A run that DEC is busy through ends where DEC is not busy. -/
theorem DecRun.eq_of_idle (h : DecRun k s t) (hi : s.dec.busy = false) : k = 0 ∧ t = s := by
  cases h with
  | refl => exact ⟨rfl, rfl⟩
  | decTurn busy => exact absurd (hi.symm.trans busy) (by decide)
  | otherTurn busy => exact absurd (hi.symm.trans busy) (by decide)

/-- Only its own turn and reset change the registers of a busy DEC (R28, R181). -/
theorem dec_kept_of_other_turn (hs : step s = .next t) (hb : s.dec.busy = true) (ht : nextTurn s ≠ .agent .dec)
    (hr : nextTurn s ≠ .reset) : t.dec = s.dec := by
  cases decEffect_of_step hs with
  | kept eq => exact eq
  | failed turn => exact absurd turn ht
  | advanced turn => exact absurd turn ht
  | started _ idle => exact absurd (idle.symm.trans hb) (by decide)
  | operand _ _ idle => exact absurd (idle.symm.trans hb) (by decide)
  | reset turn => exact absurd turn hr

/-- A step that writes no byte of DEC's span keeps its bytes. -/
theorem span_bytes_kept (hk : DecSpanKept s) (hs : step s = .next t) {j : Nat} (hj : j < min s.dec.len.toNat 9) :
    byteAt t s.dec.base j = byteAt s s.dec.base j := by
  obtain ⟨hhost, henc⟩ := hk
  cases memEffect_of_step hs with
  | kept eq => rw [byteAt_congr (step_plat hs) eq]
  | encWrite turn enabled room _ eq =>
    exact byteAt_of_write_other (step_plat hs) eq (ne_of_not_inDecSpan (henc turn enabled room) hj)
  | hostWrite next _ eq => exact byteAt_of_write_other (step_plat hs) eq (ne_of_not_inDecSpan (hhost _ _ _ next) hj)

end

/-! ### The run -/

section
variable {b : Nat → Byte} {L k n : Nat} {s t : State}

/-- Taking a turn changes nothing of the transaction. -/
theorem Decoding.turn_taken (h : Decoding b L k s) : Decoding b L k (takeTurn s) :=
  { h with }

/-- Another agent's step that keeps out of the span leaves the transaction where it is. -/
theorem Decoding.other_turn (h : Decoding b L k s) (ht : nextTurn s ≠ .agent .dec) (hr : nextTurn s ≠ .reset)
    (hk : DecSpanKept s) (hs : step s = .next t) : Decoding b L k t := by
  have eq := dec_kept_of_other_turn hs h.busy ht hr
  have hbytes : ∀ j, j < min L 9 → byteAt t t.dec.base j = b j := fun j hj => by
    rw [eq, span_bytes_kept hk hs (by rwa [h.len])]
    exact h.bytes j hj
  exact
    { h with
      plat := step_plat hs ▸ h.plat
      len := eq ▸ h.len
      bytes := hbytes
      busy := eq ▸ h.busy
      acc := eq ▸ h.acc
      shift := eq ▸ h.shift
      rptr := eq ▸ h.rptr }

/-- R147 from any point of the transaction: a run that ends it ends it with R147's outcome. -/
theorem Decoding.decoded_of_run (h : Decoding b L k s) (hrun : DecRun n s t) (hidle : t.dec.busy = false) :
    Decoded b L (k + n) t := by
  induction hrun generalizing k with
  | refl => exact absurd (h.busy.symm.trans hidle) (by decide)
  | otherTurn _ turn noReset kept next _ ih => exact ih (h.other_turn turn noReset kept next) hidle
  | @decTurn n s u t _ turn next rest ih =>
    by_cases hf : s.fault = none
    · obtain rfl : decTurn (takeTurn s) = u := by simpa [step_of_dec turn] using next
      rcases h.turn_taken.next hf with ⟨d, e, hgoes | hends⟩ | ⟨-, -, -, e⟩ <;> rw [e] at rest ih
      · rw [Nat.add_comm n, ← Nat.add_assoc]
        exact ih hgoes hidle
      · obtain ⟨rfl, rfl⟩ := rest.eq_of_idle hends.idle
        exact hends
      · exact absurd ((rest.busy_of_fault (by simp) h.busy).symm.trans hidle) (by decide)
    · have hb := dec_busy_of_fault next (by simp [turn]) hf h.busy
      exact absurd ((rest.busy_of_fault (step_keeps_fault next hf) hb).symm.trans hidle) (by decide)

/-- By the invariant, a busy DEC whose pointer is 0 has just started (R28). -/
theorem MachineInv.decoding_start (h : MachineInv s) (hb : s.dec.busy = true) (h0 : s.dec.rptr = 0#64) :
    Decoding (byteAt s s.dec.base) s.dec.len.toNat 0 s := by
  have hshift := h.dec.busy_shift hb
  have hacc := h.dec.busy_acc hb
  simp only [h0, BitVec.toNat_ofNat, Nat.zero_mod, Nat.mul_zero, pow_zero, Nat.lt_one_iff] at hshift hacc
  exact .start h.plat hb (BitVec.eq_of_toNat_eq hacc) (BitVec.eq_of_toNat_eq hshift) h0

end

/-- Settles O42: the run from the start of the transaction ends with the one outcome that R147 gives the bytes of the span. -/
theorem decodeUnderAnyInterleaving : Obligations.DecodeUnderAnyInterleaving := by
  unfold Obligations.DecodeUnderAnyInterleaving
  rintro k s t L rfl hi hb h0 hrun hidle
  obtain ⟨-, hdone, houtcome⟩ := (hi.decoding_start hb h0).decoded_of_run hrun hidle
  rw [Nat.zero_add] at houtcome
  exact ⟨hdone, fun j hfirst => houtcome.unique (.terminated hfirst),
    fun hnone hshort => houtcome.unique (.exhausted hnone hshort),
    fun hnone hlong => houtcome.unique (.overflowed hnone hlong)⟩

end Sys2Proof.Machine
end

section
/-! SUPPORT. What was encoded is decoded again (41_decoder.md R154). -/

namespace Sys2Proof.Machine

section
variable {v : Word} {b : Nat → Byte} {L : Nat}

/-- An encoding of nine bytes or fewer is decoded to its value: its last byte is the first terminator (R72, R154). -/
theorem decodesTo_encoding (hv : v.toNat < 2 ^ 63) (hL : encLen v ≤ L) (hb : ∀ k, k < encLen v → b k = encByte v k) :
    DecodesTo b L errOK v (encLen v) (encLen v) := by
  have hnine : encLen v ≤ 9 := (encLen_le_iff v (j := 9) (by omega)).2 hv
  obtain ⟨j, hj⟩ : ∃ j, encLen v = j + 1 := ⟨encLen v - 1, by have := one_le_encLen v; omega⟩
  have hfirst : firstTerminator b (min L 9) = some j := by
    refine firstTerminator_eq_some.2 ⟨by omega, ?_, fun i hi => ?_⟩
    · rw [hb j (by omega), wireMore_encByte, decide_eq_false (by omega)]
    · rw [hb i (by omega), wireMore_encByte, decide_eq_true (by omega)]
  have hsum : chunkSum b (j + 1) = v := by rw [← hj, chunkSum_congr hb, chunkSum_encLen]
  have hend := DecodesTo.terminated hfirst
  rwa [hsum, ← hj] at hend

/-- An encoding of ten bytes is too long for the decoder: nine bytes and no terminator (R142, R154). -/
theorem decodesTo_long_encoding (hn : encLen v = 10) (hL : 10 ≤ L) (hb : ∀ k, k < 10 → b k = encByte v k) :
    DecodesTo b L errOVF 0#64 9 10 := by
  refine .overflowed (firstTerminator_eq_none.2 fun k hk => ?_) hL
  rw [hb k (by omega), wireMore_encByte, decide_eq_true (by omega)]

/-- A value of 2^63 or more has ten bytes (R72). -/
theorem encLen_eq_ten (hv : 2 ^ 63 ≤ v.toNat) : encLen v = 10 := by
  have hlong := (lt_encLen_iff v (j := 9) (by omega)).2 hv
  have := encLen_le_ten v
  omega

/-- What the decoder makes of an encoding, in as many turns as it has bytes (R154). -/
theorem exists_decodesTo_encoding (hL : encLen v ≤ L) (hb : ∀ k, k < encLen v → b k = encByte v k) :
    ∃ err result count, DecodesTo b L err result count (encLen v) ∧ count ≤ encLen v ∧
      (v.toNat < 2 ^ 63 → result = v ∧ err = errOK ∧ count = encLen v) ∧
      (2 ^ 63 ≤ v.toNat → result = 0#64 ∧ err = errOVF) := by
  rcases Nat.lt_or_ge v.toNat (2 ^ 63) with hv | hv
  · exact ⟨_, _, _, decodesTo_encoding hv hL hb, le_rfl, fun _ => ⟨rfl, rfl, rfl⟩, fun h => absurd hv (Nat.not_lt.2 h)⟩
  · have hn := encLen_eq_ten hv
    have hend := decodesTo_long_encoding hn (hn ▸ hL) (hn ▸ hb)
    rw [hn]
    exact ⟨_, _, _, hend, by omega, fun h => absurd h (Nat.not_lt.2 hv), fun _ => ⟨rfl, rfl⟩⟩

end

/-- Settles O43: the encode transaction leaves enc(ENC_VALUE) in the buffer, and the decode transaction reads it there. -/
theorem encodeThenDecodeRoundTrip : Obligations.EncodeThenDecodeRoundTrip := by
  unfold Obligations.EncodeThenDecodeRoundTrip
  rintro s script' rest n rfl hcap hlen hbase hp hm hf hie hid hdistinct ha hscript hsched
  obtain ⟨-, u, henc, hu, -, hbytes, -⟩ := encodeTransaction s _ _ _ _ _ _ rfl rfl (min_eq_right hcap).symm
    (by rw [if_neg (Nat.not_lt.2 hcap), Nat.add_zero]) hp hm hf hie hscript hsched ha
  have hdec : u.dec = s.dec := by rw [hu]
  have hplat : u.plat = s.plat := by rw [hu]
  obtain ⟨err, result, count, hends, hcount, hsmall, hlarge⟩ :=
    exists_decodesTo_encoding (v := s.enc.value) (L := u.dec.len.toNat) (b := byteAt u u.dec.base) (by rw [hdec]; exact hlen)
      (by rw [hdec, hbase]; exact hbytes hdistinct)
  obtain ⟨t, hrun, ht, -, hdone, herr, hresult, hrptr, -⟩ := run_decode hends (by rw [hplat]; exact hp) (by rw [hu]; exact hf)
    (by rw [hdec]; exact hid) (by rw [hplat, hdec, hbase]; exact fun k hk => ha k (by omega)) (by rw [hu]) (by rw [hu])
  have hall : run (2 + 2 * encLen s.enc.value) s = .next t := by
    rw [show 2 + 2 * encLen s.enc.value = 1 + encLen s.enc.value + (1 + encLen s.enc.value) by omega, run_add henc, hrun]
  refine ⟨t, hall, by rw [ht], by rw [ht], by rw [ht, hu]; exact hf, by rw [ht, hu], hdone, fun hv => ?_, fun hv => ?_⟩
  · obtain ⟨rfl, rfl, rfl⟩ := hsmall hv
    exact ⟨hresult, herr, hrptr⟩
  · obtain ⟨rfl, rfl⟩ := hlarge hv
    exact ⟨hresult, herr⟩

end Sys2Proof.Machine
end

section
/-! SUPPORT. The decoder's step (41_decoder.md R140 to R146). -/

namespace Sys2Proof.Machine

/-- A terminator ends the transaction with the new accumulator as its result (R145). -/
theorem advanceDec_of_last (p : Platform) {b : Byte} (d : DecRegs) (h : wireMore b = false) :
    advanceDec p b d =
      { d with
        acc := reassemble d.acc d.shift b, rptr := truncTo p.lenW (d.rptr + 1#64), busy := false, done := true,
        err := errOK, result := reassemble d.acc d.shift b } := by
  rcases advanceDec_cases p b d with ⟨-, e⟩ | ⟨hmore, -⟩
  · exact e
  · exact absurd (h.symm.trans hmore) (by decide)

/-- A continuation byte advances the shift (R145). -/
theorem advanceDec_of_more (p : Platform) {b : Byte} (d : DecRegs) (h : wireMore b = true) :
    advanceDec p b d =
      { d with
        acc := reassemble d.acc d.shift b, rptr := truncTo p.lenW (d.rptr + 1#64), shift := d.shift + 7#6 } := by
  rcases advanceDec_cases p b d with ⟨hlast, -⟩ | ⟨-, e⟩
  · exact absurd (hlast.symm.trans h) (by decide)
  · exact e

theorem decEnabled_of_idle_or_fault {s : State} (h : s.dec.busy = false ∨ s.fault ≠ none) : decEnabled s = false := by
  refine Bool.eq_false_iff.2 fun hon => ?_
  obtain ⟨hb, hf⟩ := decEnabled_iff.1 hon
  exact h.elim (fun hi => Bool.false_ne_true (hi.symm.trans hb)) fun hn => hn hf

/-- Settles O21: the cases of a turn of DEC. -/
theorem decoderStep : Obligations.DecoderStep := by
  unfold Obligations.DecoderStep
  intro s ht
  have hon : s.dec.busy = true → s.fault = none → decEnabled (takeTurn s) = true := fun hb hf => decEnabled_iff.2 ⟨hb, hf⟩
  rw [step_of_dec ht]
  refine ⟨fun hoff => ?_, fun hb hf hl => ?_, fun hb hf hl hs => ?_, fun hb hf hl hs ha => ?_, fun hb hf hl hs ha => ?_⟩
  · rw [decTurn_of_disabled (decEnabled_of_idle_or_fault (s := takeTurn s) hoff)]
  · rw [decTurn_of_exhausted (hon hb hf) hl]
    rfl
  · rw [decTurn_of_overflow (hon hb hf) hl hs]
    rfl
  · rintro b acc' rfl rfl
    rw [decTurn_of_admits (hon hb hf) hl hs ha]
    refine ⟨fun hlast => ?_, fun hmore => ?_⟩
    · rw [advanceDec_of_last (b := (takeTurn s).mem.read (decAddr (takeTurn s)).toNat) _ _ hlast]
      rfl
    · rw [advanceDec_of_more (b := (takeTurn s).mem.read (decAddr (takeTurn s)).toNat) _ _ hmore]
      rfl
  · rw [decTurn_of_not_admits (hon hb hf) hl hs ha]
    rfl

end Sys2Proof.Machine
end

section
/-! SUPPORT. Register writes of the host as steps, which of them are held, and illegal command words (42_host_commands.md R181,
R186 to R188). -/

namespace Sys2Proof.Machine

section
variable {s t : State} {d : Word} {r : HReg} {i : Instr} {e : DecodeError} {rest : List HostAction}

/-! ### Which writes are held -/

/-- A command is held only where it starts a busy engine (R181). -/
theorem command_not_held (hd : decode d = .ok i) (he : i = .enc → s.enc.busy = false) (hdec : i = .dec → s.dec.busy = false) :
    held (.wr .cmd d) s = false := by
  obtain rfl := eq_encode_of_decode hd
  cases i with
  | nop => rfl
  | enc => exact he rfl
  | dec => exact hdec rfl

/-- An illegal word is never held (R186, R204). -/
theorem illegal_word_not_held (hd : decode d = .error e) (s : State) : held (.wr .cmd d) s = false := by
  simp [held, writeHeld, hd]

/-! ### Steps that take a register write -/

/-- A register write that is not held is taken (R180). -/
theorem write_step (h : HostNext s (.wr r d) rest) (hh : held (.wr r d) s = false) :
    step s = hostWrite r d ((takeTurn s).setScript rest) := step_of_not_held h hh

/-- A write to CMD of an illegal word, as a step of the machine (R186). -/
theorem illegal_command_step (h : HostNext s (.wr .cmd d) rest) (hd : decode d = .error e) :
    step s = .next (((takeTurn s).setScript rest).setCmdIllegal true) := by
  rw [write_step h (illegal_word_not_held hd s)]
  exact commandWord_of_error hd _

theorem hostWrite_of_ne_cmd (hr : r ≠ .cmd) (d : Word) (s : State) : hostWrite r d s = .next (writeReg r d s) := by
  cases r with
  | cmd => exact absurd rfl hr
  | _ => rfl

/-- A write to any other register than CMD, as a step of the machine (R187, R188). -/
theorem register_write_step (h : HostNext s (.wr r d) rest) (hr : r ≠ .cmd) (hh : held (.wr r d) s = false) :
    step s = .next (writeReg r d ((takeTurn s).setScript rest)) := by
  rw [write_step h hh, hostWrite_of_ne_cmd hr]

/-- No register write puts an action on the script. -/
theorem hostWrite_script (h : hostWrite r d s = .next t) : t.script = s.script := by
  rcases hostWrite_cases h with ⟨-, i, -, hx⟩ | ⟨-, -, rfl⟩ | ⟨-, rfl⟩
  · obtain ⟨-, -, -, hscript, -⟩ := exec_frame hx
    exact hscript
  · rfl
  · exact writeReg_script ..

/-- A register write that is not held leaves the script after it. -/
theorem write_taken (h : HostNext s (.wr r d) rest) (hh : held (.wr r d) s = false) :
    ∃ t, step s = .next t ∧ t.script = rest := by
  obtain ⟨t, ht⟩ := hostWrite_answers_next r d ((takeTurn s).setScript rest)
  exact ⟨t, (write_step h hh).trans ht, hostWrite_script ht⟩

/-! ### Illegal command words -/

/-- A word with a RSVD bit set or OPC of 3 or more is no command (R77). -/
theorem decode_error_of_illegal_fields (h : rsvdField d ≠ 0#60 ∨ 3 ≤ (opcField d).toNat) : ∃ e, decode d = .error e := by
  refine decode_error_of_not_ok fun hlegal => ?_
  obtain ⟨hrsvd, hopc⟩ := (decode_ok_iff_fields d).1 hlegal
  rcases h with hne | hbig
  · exact hne hrsvd
  · rcases hopc with ho | ho | ho <;> simp [ho] at hbig

/-- Of the writes to CMD, only a legal word that is taken clears CMD_ILLEGAL (R186). -/
theorem legal_word_of_cmdIllegal_cleared (hn : HostNext s (.wr .cmd d) rest) (hset : s.cmdIllegal = true)
    (hs : step s = .next t) (hclear : t.cmdIllegal = false) : ∃ i, decode d = .ok i ∧ t.script = rest := by
  have hne : t.cmdIllegal ≠ true := by simp [hclear]
  cases hh : held (.wr .cmd d) s with
  | true =>
    rw [step_of_held hn hh, Host.Outcome.next.injEq] at hs
    subst hs
    exact absurd hset hne
  | false =>
    rw [write_step hn hh] at hs
    rcases hostWrite_cases hs with ⟨-, i, hi, -⟩ | ⟨-, -, rfl⟩ | ⟨hcmd, -⟩
    · exact ⟨i, hi, hostWrite_script hs⟩
    · exact absurd rfl hne
    · exact absurd rfl hcmd

end

/-- Settles O9: an illegal word decodes to no command, and of the steps that write CMD_ILLEGAL only reset and an accepted
legal word clear it. -/
theorem illegalCommandOnlySetsCmdIllegal : Obligations.IllegalCommandOnlySetsCmdIllegal := by
  unfold Obligations.IllegalCommandOnlySetsCmdIllegal
  constructor
  · intro s d rest hn hfields
    obtain ⟨e, he⟩ := decode_error_of_illegal_fields hfields
    exact illegal_command_step hn he
  · intro s t hset hs hclear
    rcases cmdIllegal_writer_of_ne hs (by simp [hset, hclear]) with hreset | ⟨d, rest, hn⟩
    · exact .inl hreset
    · obtain ⟨i, hi, hscript⟩ := legal_word_of_cmdIllegal_cleared hn hset hs hclear
      exact .inr ⟨d, rest, i, hn, hi, hscript⟩

/-- Settles O10: `held_wr_iff` says which writes are held, a held write only passes the turn, and any other is taken. -/
theorem heldWritesAndNoOthers : Obligations.HeldWritesAndNoOthers := by
  unfold Obligations.HeldWritesAndNoOthers
  refine ⟨fun s r d rest hn hheld => ?_, fun s r d rest hn hnot => ?_, fun s r rest hn => ?_⟩
  · exact step_of_held hn ((held_wr_iff r d s).2 hheld)
  · exact write_taken hn (Bool.eq_false_iff.2 (mt (held_wr_iff r d s).1 hnot))
  · exact ⟨_, step_of_not_held hn rfl, rfl⟩

/-- Settles O11: an operand write waits for its own engine only, and `truncTo` keeps the low bits. -/
theorem operandWriteStoresLowBits : Obligations.OperandWriteStoresLowBits := by
  unfold Obligations.OperandWriteStoresLowBits
  refine ⟨?_, ?_, ?_, ?_, ?_⟩ <;> exact fun s d rest hn hidle => register_write_step hn nofun hidle

/-- Settles O12: a write to an index that is neither CMD nor an operand is never held and stores nothing. -/
theorem readOnlyAndReservedWritesDoNothing : Obligations.ReadOnlyAndReservedWritesDoNothing := by
  unfold Obligations.ReadOnlyAndReservedWritesDoNothing
  rintro s r d rest hn (rfl | rfl | rfl | rfl | ⟨k, rfl⟩) <;> exact register_write_step hn nofun rfl

end Sys2Proof.Machine
end

section
/-! SUPPORT. The commands NOP, ENC and DEC, executed and as steps (42_host_commands.md R180 to R185). -/

namespace Sys2Proof.Machine

section
variable {s : State} {nbits w : Nat} {i : Instr}

theorem decode_tableWord_of_decodeTableWord (h : decodeTableWord nbits w = some i) : decode (tableWord nbits w) = .ok i := by
  unfold decodeTableWord at h
  split at h
  case isTrue =>
    cases hd : decode (tableWord nbits w) with
    | ok j => simpa [hd] using h
    | error e => simp [hd] at h
  case isFalse => cases h

theorem hostNext_withFetchWord (s : State) (nbits w : Nat) :
    HostNext (s.withFetchWord nbits w) (.wr .cmd (tableWord nbits w)) s.script := ⟨rfl, rfl⟩

/-- The turn and the action that `withFetchWord` places, taken, leave the state it started from (log 11). -/
theorem takeTurn_withFetchWord (s : State) (nbits w : Nat) :
    (takeTurn (s.withFetchWord nbits w)).setScript s.script = s := rfl

theorem exec_enc_of_idle (h : s.enc.busy = false) :
    exec .enc s = .next ((s.setEnc (startEnc s.enc)).setCmdIllegal false) := by simp [exec, execEnc, h]

theorem exec_dec_of_idle (h : s.dec.busy = false) :
    exec .dec s = .next ((s.setDec (startDec s.dec)).setCmdIllegal false) := by simp [exec, execDec, h]

end

/-- Settles O5: a command that is not held is executed, and `withFetchWord` places exactly one turn and one action. -/
theorem stepRunsTheDecodedCommand : Obligations.StepRunsTheDecodedCommand := by
  unfold Obligations.StepRunsTheDecodedCommand
  constructor
  · exact fun s d i rest hn hd he hdec => host_command_step hn hd (command_not_held hd he hdec)
  · intro s nbits w i hw he hdec
    have hd := decode_tableWord_of_decodeTableWord hw
    rw [host_command_step (hostNext_withFetchWord s nbits w) hd (command_not_held hd he hdec), takeTurn_withFetchWord]

theorem statusWord_bit_eight (s : State) : (statusWord s).getLsbD 8 = s.cmdIllegal := by
  obtain ⟨-, -, -, -, -, -, -, h, -⟩ := statusWordLayout s
  exact h

/-- No bit of STATUS but bit 8 depends on CMD_ILLEGAL (R33). -/
theorem statusWord_bit_setCmdIllegal (s : State) (b : Bool) {i : Nat} (hi : i < 64) (h8 : i ≠ 8) :
    (statusWord (s.setCmdIllegal b)).getLsbD i = (statusWord s).getLsbD i := by
  have hbit : ∀ c : Bool, (bitWord c <<< 8).getLsbD i = false := by
    intro c
    rcases Nat.lt_or_ge i 8 with hlt | hge
    · simp [hlt]
    · have hne : i - 8 ≠ 0 := by omega
      simp [bitWord_getElem, hi, hne]
  simp [statusWord, hbit, -BitVec.getLsbD_shiftLeft]

/-- Clearing CMD_ILLEGAL clears bit 8 of STATUS and no other (R33). -/
theorem statusWord_clear_cmdIllegal (s : State) :
    statusWord (s.setCmdIllegal false) = statusWord s &&& ~~~0x100#64 := by
  have hmask : ∀ i, i < 64 → (~~~0x100#64).getLsbD i = decide (i ≠ 8) := by decide
  apply BitVec.eq_of_getLsbD_eq
  intro i hi
  rw [BitVec.getLsbD_and, hmask i hi]
  rcases eq_or_ne i 8 with rfl | h8
  · rw [statusWord_bit_eight]
    simp
  · simp [statusWord_bit_setCmdIllegal s false hi h8, h8]

/-- Settles O6: NOP is never held, and CMD_ILLEGAL is bit 8 of STATUS. -/
theorem nopClearsCommandIllegal : Obligations.NopClearsCommandIllegal := by
  unfold Obligations.NopClearsCommandIllegal
  refine ⟨fun s => rfl, fun s rest hn => ?_, fun s t ht => ?_⟩
  · exact host_command_step hn (i := .nop) rfl rfl
  · obtain rfl := Host.Outcome.next.inj ht
    exact statusWord_clear_cmdIllegal s

/-- Settles O7: ENC is accepted by an idle encoder and held by a busy one. -/
theorem encCommandStartsTransaction : Obligations.EncCommandStartsTransaction := by
  unfold Obligations.EncCommandStartsTransaction
  refine ⟨fun s hi => exec_enc_of_idle hi, fun s rest hn hi => enc_start_step hn hi, fun s rest hn hb => ?_⟩
  exact step_of_held hn ((held_enc_command s).trans hb)

/-- Settles O8: DEC is accepted by an idle decoder and held by a busy one. -/
theorem decCommandStartsTransaction : Obligations.DecCommandStartsTransaction := by
  unfold Obligations.DecCommandStartsTransaction
  refine ⟨fun s hi => exec_dec_of_idle hi, fun s rest hn hi => dec_start_step hn hi, fun s rest hn hb => ?_⟩
  exact step_of_held hn ((held_dec_command s).trans hb)

end Sys2Proof.Machine
end

section
/-! SUPPORT. MW and MR as steps of the machine (42_host_commands.md R189). -/

namespace Sys2Proof.Machine

/-- An MW or MR at an address that is not admitted, as a step of the machine (R189, R201). -/
theorem host_access_fault_step {s : State} {a : Addr} {act : HostAction} {rest : List HostAction} (hn : HostNext s act rest)
    (hact : act = .mr a ∨ ∃ v, act = .mw a v) (ha : admits s.plat a = false) :
    step s = .next (raiseFault (.bufferNotAdmitted .host a) ((takeTurn s).setScript rest)) := by
  rcases hact with rfl | ⟨v, rfl⟩
  · rw [step_of_not_held hn rfl, hostAct, hostMemRead, memRead_of_not_admits (by exact ha)]
  · rw [step_of_not_held hn rfl, hostAct, hostMemWrite, memWrite_of_not_admits (by exact ha)]

theorem host_read_step {s : State} {a : Addr} {rest : List HostAction} (hn : HostNext s (.mr a) rest)
    (ha : admits s.plat a = true) :
    step s = .next (pushRead (.mem a (s.mem.read a.toNat)) ((takeTurn s).setScript rest)) := by
  rw [step_of_not_held hn rfl, hostAct, hostMemRead, memRead_of_admits (by exact ha)]
  rfl

/-- Settles O17: an admitted MW or MR is one access of `Memory`, and any other is the fault with agent HOST. -/
theorem hostBufferAccess : Obligations.HostBufferAccess := by
  unfold Obligations.HostBufferAccess
  refine ⟨fun s a v rest hn hm ha => ?_, fun s a rest hn ha => host_read_step hn ha, fun s a act rest hn hact ha => ?_⟩
  · exact ⟨_, host_write_step hn ha, rfl, Memory.read_write_same hm _ _, fun b => Memory.read_write_other _ _⟩
  · exact ⟨_, host_access_fault_step hn hact ha, rfl⟩

end Sys2Proof.Machine
end

section
/-! SUPPORT. What raises a fault, what keeps FAULT as it is, and what goes on after a fault (60_exceptions.md R200 to R205). -/

namespace Sys2Proof.Machine

section
variable {s t u : State} {a : HostAction} {r : HReg} {d : Word} {rest : List HostAction}

/-! ### Which steps write FAULT -/

/-- A register write raises no fault: only buffer accesses do (R200). -/
theorem hostWrite_fault (h : hostWrite r d u = .next t) : t.fault = u.fault := by
  rcases hostWrite_cases h with ⟨-, i, -, hx⟩ | ⟨-, -, rfl⟩ | ⟨-, rfl⟩
  · exact (exec_frame hx).1
  · rfl
  · exact writeReg_fault ..

/-- A host action leaves FAULT as it is, or does nothing but record its own access that is not admitted (R201). -/
theorem hostAct_fault_cases (h : hostAct a u = .next t) :
    t.fault = u.fault ∨ ∃ b, admits u.plat b = false ∧ t = raiseFault (.bufferNotAdmitted .host b) u := by
  cases a with
  | wr r d => exact .inl (hostWrite_fault h)
  | rd r =>
    obtain rfl := Host.Outcome.next.inj h
    exact .inl rfl
  | mw b v =>
    obtain rfl := Host.Outcome.next.inj h
    rcases hostMemWrite_cases b v u with ⟨-, e⟩ | ⟨hb, e⟩ <;> rw [e]
    · exact .inl rfl
    · exact .inr ⟨b, hb, rfl⟩
  | mr b =>
    obtain rfl := Host.Outcome.next.inj h
    rcases hostMemRead_cases b u with ⟨-, e⟩ | ⟨hb, e⟩ <;> rw [e]
    · exact .inl rfl
    · exact .inr ⟨b, hb, rfl⟩
  | wait m v =>
    obtain rfl := Host.Outcome.next.inj h
    rcases hostPoll_cases m v u with ⟨-, e⟩ | ⟨-, e⟩ <;> rw [e] <;> exact .inl rfl

/-- A step leaves FAULT as it is, or does nothing but take its turn and record an access that is not admitted, by the agent
whose turn it is (R201). The host's action is gone from the script then (log 6). -/
theorem step_fault_cases (h : step s = .next t) :
    t.fault = s.fault ∨
    ∃ ag b l, nextTurn s = .agent ag ∧ admits s.plat b = false ∧
      t = raiseFault (.bufferNotAdmitted ag b) ((takeTurn s).setScript l) := by
  rcases step_cases_full h with ⟨-, -, rfl⟩ | ⟨a, rest, -, -, rfl⟩ | ⟨a, rest, hn, -, hx⟩ | ⟨ht, rfl⟩ | ⟨ht, rfl⟩ | ⟨-, rfl⟩
  · exact .inl rfl
  · exact .inl rfl
  · rcases hostAct_fault_cases hx with hkept | ⟨b, hb, rfl⟩
    · exact .inl hkept
    · exact .inr ⟨.host, b, rest, hn.1, hb, rfl⟩
  · rcases encTurn_cases (takeTurn s) with ⟨-, e⟩ | ⟨-, -, e⟩ | ⟨-, -, hb, e⟩ | ⟨-, -, -, e⟩ <;> rw [e]
    · exact .inl rfl
    · exact .inl rfl
    · exact .inr ⟨.enc, _, s.script, ht, hb, rfl⟩
    · exact .inl rfl
  · rcases decTurn_cases (takeTurn s) with ⟨-, e⟩ | ⟨-, -, e⟩ | ⟨-, -, -, e⟩ | ⟨-, -, -, hb, e⟩ | ⟨-, -, -, -, e⟩ <;> rw [e]
    · exact .inl rfl
    · exact .inl rfl
    · exact .inl rfl
    · exact .inr ⟨.dec, _, s.script, ht, hb, rfl⟩
    · exact .inl rfl
  · exact .inl rfl

/-! ### What goes on with FAULT set -/

/-- With FAULT set neither engine has a step (R106, R146, R201). -/
theorem engine_turn_passes_of_fault (hf : s.fault ≠ none) (ht : nextTurn s = .agent .enc ∨ nextTurn s = .agent .dec) :
    step s = .next (takeTurn s) := by
  rcases ht with ht | ht
  · have hoff : encEnabled (takeTurn s) = false := Bool.eq_false_iff.2 fun he => hf (encEnabled_iff.1 he).2
    rw [step_of_enc ht, encTurn_of_disabled hoff]
  · have hoff : decEnabled (takeTurn s) = false := decEnabled_of_idle_or_fault (.inr hf)
    rw [step_of_dec ht, decTurn_of_disabled hoff]

/-- A register access that is not held is taken and leaves FAULT as it is, set or not (R201, R202). -/
theorem register_access_taken (hn : HostNext s a rest) (hh : held a s = false)
    (ha : (∃ r, a = .rd r) ∨ ∃ r d, a = .wr r d) : ∃ t, step s = .next t ∧ t.script = rest ∧ t.fault = s.fault := by
  rcases ha with ⟨r, rfl⟩ | ⟨r, d, rfl⟩
  · exact ⟨_, step_of_not_held hn rfl, rfl, rfl⟩
  · obtain ⟨t, hs, hscript⟩ := write_taken hn hh
    rw [write_step hn hh] at hs
    exact ⟨t, (write_step hn hh).trans hs, hscript, by simpa using hostWrite_fault hs⟩

/-- A state with a fault recorded is not final (R245). -/
theorem not_final_of_fault (hf : s.fault ≠ none) : s.final = false := by
  have hset : s.fault.isNone = false := by simpa [Option.isSome_iff_ne_none] using hf
  simp only [State.final, hset, Bool.and_false]

end

/-- Settles O22: a step that changes FAULT only records the fault (`step_fault_cases`), and with FAULT set neither engine is
enabled while register accesses are taken as ever. -/
theorem faultStopsEnginesAndNothingElse : Obligations.FaultStopsEnginesAndNothingElse := by
  unfold Obligations.FaultStopsEnginesAndNothingElse
  refine ⟨fun s t hs hne => ?_, fun s hf ht => engine_turn_passes_of_fault hf ht,
    fun s a rest _ hn hh ha => register_access_taken hn hh ha, fun s t hf hs hr => ?_, fun s hf => not_final_of_fault hf⟩
  · rcases step_fault_cases hs with hkept | ⟨ag, b, l, ht, hb, rfl⟩
    · exact absurd hkept hne
    · exact ⟨⟨rfl, rfl, rfl, rfl, rfl⟩, ag, b, rfl, ht, hb⟩
  · exact ⟨enc_busy_of_fault hs hr hf, dec_busy_of_fault hs hr hf⟩

/-- Settles O23: a step keeps FAULT or replaces it by another record. -/
theorem faultIsNeverCleared : Obligations.FaultIsNeverCleared := by
  unfold Obligations.FaultIsNeverCleared
  exact fun s t hf hs => step_keeps_fault hs hf

/-- Settles O26: every turn answers a next state, the host's because every host action does. -/
theorem everyStepGoesOn : Obligations.EveryStepGoesOn := by
  unfold Obligations.EveryStepGoesOn
  intro s
  match ht : nextTurn s with
  | .agent .host =>
    obtain ⟨t, hs⟩ := hostTurn_answers_next (takeTurn s)
    exact ⟨t, (step_of_host ht).trans hs⟩
  | .agent .enc => exact ⟨_, step_of_enc ht⟩
  | .agent .dec => exact ⟨_, step_of_dec ht⟩
  | .reset => exact ⟨_, step_of_reset ht⟩

end Sys2Proof.Machine
end

section
/-! SUPPORT. Ten turns of a busy engine end its transaction (70_reset_and_hazards.md R244): each of its turns moves its pointer,
which cannot pass 9 while the engine is busy. -/

namespace Sys2Proof.Machine

/-! ### A turn that counts up to at most nine -/

/-- Where a turn either is the last or counts up, the count stays at 9 or below, and a state that is over stays as it is, as many
turns as the count is short of ten bring the end. -/
theorem iterate_over_of_bounded_count {turn : State → State} {Over : State → Prop} {Running : Nat → State → Prop}
    (stays : ∀ s, Over s → turn s = s) (next : ∀ k s, Running k s → Over (turn s) ∨ Running (k + 1) (turn s))
    (bound : ∀ k s, Running k s → k ≤ 9) {n k : Nat} {s : State} (h : Running k s) (hn : 10 ≤ k + n) :
    Over (turn^[n] s) := by
  induction n generalizing k s with
  | zero =>
    have := bound k s h
    omega
  | succ n ih =>
    rw [Function.iterate_succ_apply]
    rcases next k s h with hover | hgoes
    · rwa [Function.iterate_fixed (stays _ hover)]
    · exact ih hgoes (by omega)

/-! ### The encoder -/

/-- ENC's transaction has ended, or a fault has stopped it (R104, R201). -/
def EncOver (s : State) : Prop := s.enc.busy = false ∧ s.enc.done = true ∨ s.fault ≠ none

/-- In `s` ENC is busy, has written `k` bytes, and has a step. -/
structure EncRunning (k : Nat) (s : State) : Prop where
  plat : s.plat.wf = true
  inv : EncInv s.plat s.enc
  busy : s.enc.busy = true
  no_fault : s.fault = none
  written : s.enc.wptr.toNat = k

section
variable {k : Nat} {s : State}

theorem EncOver.turn_passes (h : EncOver s) : encTurn s = s := by
  apply encTurn_of_disabled
  rw [Bool.eq_false_iff, ne_eq, encEnabled_iff]
  rintro ⟨hb, hf⟩
  rcases h with ⟨hi, -⟩ | hfault
  · exact absurd (hi.symm.trans hb) (by decide)
  · exact hfault hf

theorem EncRunning.le_nine (h : EncRunning k s) : k ≤ 9 := h.written ▸ h.inv.wptr_le_nine h.busy

/-- A turn of a busy ENC is its last, raises a fault, or writes one more byte (R106). -/
theorem EncRunning.next (h : EncRunning k s) : EncOver (encTurn s) ∨ EncRunning (k + 1) (encTurn s) := by
  rcases encTurn_cases s with ⟨hoff, -⟩ | ⟨-, -, e⟩ | ⟨-, -, -, e⟩ | ⟨-, hc, -, e⟩
  · exact absurd (encEnabled_iff.2 ⟨h.busy, h.no_fault⟩) (by simp [hoff])
  · rw [e]
    exact .inl (.inl ⟨rfl, rfl⟩)
  · rw [e]
    exact .inl (.inr nofun)
  · rw [e]
    cases hb : (advanceEnc s.plat s.enc).busy with
    | false => exact .inl (.inl ⟨hb, advanceEnc_done_of_idle _ h.busy hb⟩)
    | true =>
      have hcount : (advanceEnc s.plat s.enc).wptr.toNat = k + 1 := by
        rw [advanceEnc_wptr, h.inv.wptr_succ h.plat h.busy, h.written]
      exact .inr ⟨h.plat, h.inv.advanced h.plat h.busy hc, hb, h.no_fault, hcount⟩

theorem MachineInv.encOver_after_ten (h : MachineInv s) (hb : s.enc.busy = true) (hf : s.fault = none) :
    EncOver (encTurn^[10] s) :=
  iterate_over_of_bounded_count (Running := EncRunning) (fun _ => EncOver.turn_passes) (fun _ _ => EncRunning.next)
    (fun _ _ => EncRunning.le_nine) ⟨h.plat, h.enc, hb, hf, rfl⟩ (Nat.le_add_left 10 _)

end

/-! ### The decoder -/

/-- DEC's transaction has ended, or a fault has stopped it (R145, R201). -/
def DecOver (s : State) : Prop := s.dec.busy = false ∧ s.dec.done = true ∨ s.fault ≠ none

/-- In `s` DEC is busy, has read `k` bytes, and has a step. -/
structure DecRunning (k : Nat) (s : State) : Prop where
  plat : s.plat.wf = true
  inv : DecInv s.plat s.dec
  busy : s.dec.busy = true
  no_fault : s.fault = none
  read : s.dec.rptr.toNat = k

section
variable {k : Nat} {s : State}

@[simp] theorem advanceDec_rptr (p : Platform) (b : Byte) (d : DecRegs) :
    (advanceDec p b d).rptr = truncTo p.lenW (d.rptr + 1#64) := by
  rcases advanceDec_cases p b d with ⟨-, h⟩ | ⟨-, h⟩ <;> rw [h]

theorem DecOver.turn_passes (h : DecOver s) : decTurn s = s :=
  decTurn_of_disabled (decEnabled_of_idle_or_fault (h.imp_left And.left))

theorem DecRunning.le_nine (h : DecRunning k s) : k ≤ 9 := h.read ▸ h.inv.rptr_le

/-- A turn of a busy DEC is its last, raises a fault, or reads one more byte (R146). -/
theorem DecRunning.next (h : DecRunning k s) : DecOver (decTurn s) ∨ DecRunning (k + 1) (decTurn s) := by
  rcases decTurn_cases s with ⟨hoff, -⟩ | ⟨-, -, e⟩ | ⟨-, -, -, e⟩ | ⟨-, -, -, -, e⟩ | ⟨-, hl, hs, -, e⟩
  · exact absurd (decEnabled_iff.2 ⟨h.busy, h.no_fault⟩) (by simp [hoff])
  · rw [e]
    exact .inl (.inl ⟨rfl, rfl⟩)
  · rw [e]
    exact .inl (.inl ⟨rfl, rfl⟩)
  · rw [e]
    exact .inl (.inr nofun)
  · rw [e]
    generalize s.mem.read (decAddr s).toNat = b
    cases hb : (advanceDec s.plat b s.dec).busy with
    | false => exact .inl (.inl ⟨hb, advanceDec_done_of_idle _ _ h.busy hb⟩)
    | true =>
      have hcount : (advanceDec s.plat b s.dec).rptr.toNat = k + 1 := by
        rw [advanceDec_rptr, h.inv.rptr_succ h.plat, h.read]
      exact .inr ⟨h.plat, h.inv.advanced h.plat h.busy hl hs b, hb, h.no_fault, hcount⟩

theorem MachineInv.decOver_after_ten (h : MachineInv s) (hb : s.dec.busy = true) (hf : s.fault = none) :
    DecOver (decTurn^[10] s) :=
  iterate_over_of_bounded_count (Running := DecRunning) (fun _ => DecOver.turn_passes) (fun _ _ => DecRunning.next)
    (fun _ _ => DecRunning.le_nine) ⟨h.plat, h.dec, hb, hf, rfl⟩ (Nat.le_add_left 10 _)

end

/-- Settles O45: a run of one engine's turns iterates its turn function, and ten turns of it end the transaction or fault. -/
theorem transactionsEndWithinTenSteps : Obligations.TransactionsEndWithinTenSteps := by
  unfold Obligations.TransactionsEndWithinTenSteps
  constructor
  · intro s rest hi hf hb hsched
    have hrun := run_encTurns 10 s rest
    rw [← hsched] at hrun
    exact ⟨_, hrun, rfl, hi.encOver_after_ten hb hf⟩
  · intro s rest hi hf hb hsched
    have hrun := run_decTurns 10 s rest
    rw [← hsched] at hrun
    exact ⟨_, hrun, rfl, hi.decOver_after_ten hb hf⟩

end Sys2Proof.Machine
end

section
/-! SUPPORT. Reset, and the states in which the machine idles: the one at launch among them (70_reset_and_hazards.md R230, R231,
R245). -/

namespace Sys2Proof.Machine

/-! ### A block whose registers are all 0 -/

/-- R230, index by index. -/
theorem hreg_reset (r : HReg) : hreg r State.reset = 0#64 := by cases r <;> rfl

/-- What the indices read depends on the registers alone, so they read 0 after a reset of any state. -/
theorem hreg_resetBlock (r : HReg) (s : State) : hreg r (resetBlock s) = 0#64 :=
  (hreg_congr (s := State.reset) rfl rfl rfl r).trans (hreg_reset r)

/-- Only a busy engine holds a host action (R181). -/
theorem not_held_of_idle {s : State} (he : s.enc.busy = false) (hd : s.dec.busy = false) (a : HostAction) :
    held a s = false := by
  cases a with
  | wr r d => rw [Bool.eq_false_iff, ne_eq, held_wr_iff, he, hd]; simp
  | _ => rfl

/-- Settles O24: the step is `resetBlock`, after which both engines are idle and every register is 0. -/
theorem resetClearsEveryRegister : Obligations.ResetClearsEveryRegister := by
  unfold Obligations.ResetClearsEveryRegister
  intro s ht
  exact ⟨_, step_of_reset ht, rfl, fun r => hreg_resetBlock r _, rfl, rfl, not_held_of_idle rfl rfl⟩

/-! ### Final states -/

/-- In a final state every agent's turn passes (R245). -/
theorem step_of_final {s : State} (h : s.final = true) (hr : nextTurn s ≠ .reset) : step s = .next (takeTurn s) := by
  simp only [State.final, Bool.and_eq_true, Bool.not_eq_true', List.isEmpty_iff] at h
  obtain ⟨⟨⟨hscript, henc⟩, hdec⟩, -⟩ := h
  match ht : nextTurn s with
  | .agent .host => rw [step_of_host ht, hostTurn, takeTurn_script, hscript]
  | .agent .enc => rw [step_of_enc ht, encTurn_of_disabled (by simp [encEnabled, henc])]
  | .agent .dec => rw [step_of_dec ht, decTurn_of_disabled (by simp [decEnabled, hdec])]
  | .reset => exact absurd ht hr

/-- Settles O25: the launch state is final, so an agent's turn passes, and a reset finds every register 0 already. -/
theorem resetStateIdles : Obligations.ResetStateIdles := by
  unfold Obligations.ResetStateIdles
  refine ⟨hreg_reset, rfl, rfl, ?_⟩
  by_cases hr : nextTurn State.reset = .reset
  · exact step_of_reset hr
  · exact step_of_final rfl hr

/-! ### The invariant at launch -/

/-- At launch both engines are 0, so the invariant asks only for legal parameters and a legal content of BUFMEM (R4, R5, R7). -/
theorem MachineInv.launch {p : Platform} {m : Memory} (hp : p.wf = true) (hm : MemInv p m) (script : List HostAction)
    (schedule : List Turn) : MachineInv (State.launch p m script schedule) :=
  ⟨hp, EncInv.zero p, DecInv.zero p, hm⟩

/-- Settles O35: the state after reset is the launch of this hardware with an empty memory, script and schedule. -/
theorem launchSatisfiesInvariant : Obligations.LaunchSatisfiesInvariant := by
  unfold Obligations.LaunchSatisfiesInvariant
  have hreset : MachineInv (State.launch Platform.hardware [] [] []) := .launch rfl ⟨rfl, List.forall_mem_nil _⟩ [] []
  exact ⟨hreset, fun p m script schedule hp hm => .launch hp hm script schedule⟩

end Sys2Proof.Machine
end
